-- ==== Sys2Proof/Word.lean ====
section
/-! DEFINITION. The one datum width of the core: the byte (00_scope.md R7 XLEN, R8). -/

namespace Sys2Proof

/-- A byte, 0..255, always read as unsigned (R8). -/
abbrev Byte := BitVec 8

end Sys2Proof
end

