-- ==== Sys2Proof/Config.lean ====
section
/-! DEFINITION. What an implementation fixes: the shape of the opcode map and the parameters the host
may choose at launch (00_scope.md R7). The default value of the map stands in Decode.lean. -/

namespace Sys2Proof

/-- The 20 operations of the closed table (30_encoding.md R76), in the table's order (DEDUCED, safe: the
spec's own choice D17, log 22). -/
inductive Operation
  | hlt | ret | push | pop | prn | call | jmp | jeq | jne | not
  | ldi | add | mul | mod | cmp | and | or | xor | shl | shr
deriving DecidableEq, Repr

/-- The four instruction formats (30_encoding.md R73). -/
inductive Format
  /-- opcode alone -/
  | f0
  /-- opcode, register -/
  | f1r
  /-- opcode, register, register -/
  | f2rr
  /-- opcode, register, immediate -/
  | f2ri
deriving DecidableEq, Repr

/-- The parameter `OPCODE_MAP`: the byte value of each operation (R7, R76, decision D1). The maps a model
may use are those of `OpcodeMap.Legal` (R77). -/
abbrev OpcodeMap := Operation → Byte

/-- The launch parameters the spec leaves OPEN and the model takes as arguments (R7, 10_state.md R37). -/
structure LaunchParams where
  /-- `reg_init`: the reset values of R0 to R6 (decision D9). -/
  regInit : Fin 7 → Byte
  /-- `mem_init`: the memory content the image does not cover (decision D11). -/
  memInit : Fin 256 → Byte
  /-- `ARITH_FAULT_PC_ADVANCE`: whether `pc` moves past a MOD that divides by zero (decision D6). -/
  arithFaultPcAdvance : Bool

end Sys2Proof
end

