-- ==== Sys2Proof/Syntax.lean ====
section
/-! DEFINITION. The instructions: one constructor per row of spec/opcode_table.json (30_encoding.md R76),
with register operands already numbers 0..7 (R74) and the immediate a byte (R75). -/

namespace Sys2Proof

/-- A register number: R0 to R7 (10_state.md R20). DESIGN CHOICE (safe): no other number is a term, log 20. -/
abbrev Reg := Fin 8

/-- The instruction set (30_encoding.md R76). `a` is the first operand, `b` the second (R73). -/
inductive Instr
  /-- halt (44_load_output_halt.md R193) -/
  | hlt
  /-- return from a subroutine (42_stack_control.md R155) -/
  | ret
  /-- push a register (R152) -/
  | push (a : Reg)
  /-- pop into a register (R153) -/
  | pop (a : Reg)
  /-- print a register (44_load_output_halt.md R192) -/
  | prn (a : Reg)
  /-- call a subroutine at a register address (42_stack_control.md R154) -/
  | call (a : Reg)
  /-- jump to a register address (43_compare_branch.md R171) -/
  | jmp (a : Reg)
  /-- jump if Equal (R172) -/
  | jeq (a : Reg)
  /-- jump if not Equal (R173) -/
  | jne (a : Reg)
  /-- bitwise complement of one register (41_alu.md R127) -/
  | not (a : Reg)
  /-- load an immediate byte (44_load_output_halt.md R191) -/
  | ldi (a : Reg) (imm : Byte)
  /-- add (41_alu.md R121) -/
  | add (a b : Reg)
  /-- multiply (R122) -/
  | mul (a b : Reg)
  /-- remainder (R123) -/
  | mod (a b : Reg)
  /-- compare and set the flags (43_compare_branch.md R170) -/
  | cmp (a b : Reg)
  /-- bitwise AND (41_alu.md R124) -/
  | and (a b : Reg)
  /-- bitwise OR (R125) -/
  | or (a b : Reg)
  /-- bitwise XOR (R126) -/
  | xor (a b : Reg)
  /-- shift left by a register amount (R128) -/
  | shl (a b : Reg)
  /-- shift right by a register amount (R129) -/
  | shr (a b : Reg)
deriving DecidableEq, Repr

end Sys2Proof
end

