-- ==== Sys2Proof/Decode.lean ====
section
/-! DEFINITION. Decoding and encoding (30_encoding.md, 40_fetch_decode_execute.md R102-R104): the default
opcode map, ONE decoder over any source of bytes, its use on a list of bytes, the encoder, and the
spec's assembly notation (R80). Everything takes the opcode map as an argument (R76's warning, R77). -/

namespace Sys2Proof

/-- Every operation, in the table's order (R76). -/
def Operation.all : List Operation :=
  [.hlt, .ret, .push, .pop, .prn, .call, .jmp, .jeq, .jne, .not,
   .ldi, .add, .mul, .mod, .cmp, .and, .or, .xor, .shl, .shr]

/-- The format of each operation (R73). -/
def Operation.format : Operation → Format
  | .hlt | .ret => .f0
  | .push | .pop | .prn | .call | .jmp | .jeq | .jne | .not => .f1r
  | .ldi => .f2ri
  | .add | .mul | .mod | .cmp | .and | .or | .xor | .shl | .shr => .f2rr

/-- How many operand bytes a format has (R73). -/
def Format.operands : Format → Nat
  | .f0 => 0
  | .f1r => 1
  | .f2rr | .f2ri => 2

/-- How many of a format's operand bytes, from the first, are register indices (R73). -/
def Format.registers : Format → Nat
  | .f0 => 0
  | .f1r | .f2ri => 1
  | .f2rr => 2

/-- The default of `OPCODE_MAP` (R76).
PRESUMED (unsafe for claims about byte values): the LS-8 convention's values, log 1. -/
def opcodeMap : OpcodeMap
  | .hlt => 0x01
  | .ret => 0x11
  | .push => 0x45
  | .pop => 0x46
  | .prn => 0x47
  | .call => 0x50
  | .jmp => 0x54
  | .jeq => 0x55
  | .jne => 0x56
  | .not => 0x69
  | .ldi => 0x82
  | .add => 0xA0
  | .mul => 0xA2
  | .mod => 0xA4
  | .cmp => 0xA7
  | .and => 0xA8
  | .or => 0xAA
  | .xor => 0xAB
  | .shl => 0xAC
  | .shr => 0xAD

/-- The operand count of an opcode byte, its bits 7:6, whatever the opcode (R71). -/
def operandCount (op : Byte) : Nat := ((op >>> 6) &&& 0b11#8).toNat

/-- The closed-table lookup, keyed by the whole opcode byte (R72). -/
def OpcodeMap.lookup (m : OpcodeMap) (op : Byte) : Option Operation :=
  Operation.all.find? fun o => m o == op

/-- Why a decoder rejects bytes, by name. -/
inductive DecodeReject
  /-- The opcode byte is not in the table (R78, 60_exceptions.md R201). -/
  | unknownOpcode (op : Byte)
  /-- A register-index operand byte is 8 or more (R74, R201). -/
  | badRegister (b : Byte)
  /-- Byte number `k` of the instruction is missing from the list of bytes given. A list only: in the core the
  missing byte is an out-of-bounds fetch (R101, R103). DESIGN CHOICE (safe), log 19. -/
  | noByte (k : Nat)
deriving DecidableEq, Repr

/-- A register-index operand byte: legal only when it is at most 7, never masked (R74).
DEDUCED (safe): the spec's own choice D3, log 11. -/
def regOperand (b : Byte) : Except DecodeReject Reg :=
  if h : b.toNat < 8 then .ok ⟨b.toNat, h⟩ else .error (.badRegister b)

/-- An instruction of format F1R from its operand byte. -/
def oneRegister (f : Reg → Instr) (b1 : Byte) : Except DecodeReject Instr := do
  let a ← regOperand b1
  return f a

/-- An instruction of format F2RR from its operand bytes, `b1` checked first (R104). -/
def twoRegisters (f : Reg → Reg → Instr) (b1 b2 : Byte) : Except DecodeReject Instr := do
  let a ← regOperand b1
  let b ← regOperand b2
  return f a b

/-- The operand check and the instruction it leaves (R104). An operand byte the format lacks is not looked at;
an immediate byte is not checked. LDI's register byte comes first (PRESUMED, unsafe for byte images, log 1). -/
def assemble (o : Operation) (b1 b2 : Byte) : Except DecodeReject Instr :=
  match o with
  | .hlt => .ok .hlt
  | .ret => .ok .ret
  | .push => oneRegister .push b1
  | .pop => oneRegister .pop b1
  | .prn => oneRegister .prn b1
  | .call => oneRegister .call b1
  | .jmp => oneRegister .jmp b1
  | .jeq => oneRegister .jeq b1
  | .jne => oneRegister .jne b1
  | .not => oneRegister .not b1
  | .ldi => oneRegister (fun a => .ldi a b2) b1
  | .add => twoRegisters .add b1 b2
  | .mul => twoRegisters .mul b1 b2
  | .mod => twoRegisters .mod b1 b2
  | .cmp => twoRegisters .cmp b1 b2
  | .and => twoRegisters .and b1 b2
  | .or => twoRegisters .or b1 b2
  | .xor => twoRegisters .xor b1 b2
  | .shl => twoRegisters .shl b1 b2
  | .shr => twoRegisters .shr b1 b2

/-- The decoder, over any way to read byte number `k` of the instruction: read the opcode, look it up, read as
many operand bytes as its top bits say, in order, then check the register operands (R101-R104 and the order of
60_exceptions.md R207). `reject` turns a decoder's own rejection into the reader's kind of error. An operand the
count does not ask for is not read; the 0 in its place is looked at by no format with that count. -/
def decodeFrom {ε : Type} (m : OpcodeMap) (read : Nat → Except ε Byte) (reject : DecodeReject → ε) :
    Except ε Instr := do
  let op ← read 0
  match m.lookup op with
  | none => .error (reject (.unknownOpcode op))
  | some o =>
    let n := operandCount op
    let b1 ← if 1 ≤ n then read 1 else .ok 0
    let b2 ← if n = 2 then read 2 else .ok 0
    (assemble o b1 b2).mapError reject

/-- The operation of an instruction. -/
def Instr.operation : Instr → Operation
  | .hlt => .hlt
  | .ret => .ret
  | .push _ => .push
  | .pop _ => .pop
  | .prn _ => .prn
  | .call _ => .call
  | .jmp _ => .jmp
  | .jeq _ => .jeq
  | .jne _ => .jne
  | .not _ => .not
  | .ldi _ _ => .ldi
  | .add _ _ => .add
  | .mul _ _ => .mul
  | .mod _ _ => .mod
  | .cmp _ _ => .cmp
  | .and _ _ => .and
  | .or _ _ => .or
  | .xor _ _ => .xor
  | .shl _ _ => .shl
  | .shr _ _ => .shr

/-- The operand byte of a register number (R74). -/
def regByte (a : Reg) : Byte := BitVec.ofNat 8 a.val

/-- The operand bytes of an instruction, in order (R73). -/
def Instr.operandBytes : Instr → List Byte
  | .hlt | .ret => []
  | .push a | .pop a | .prn a | .call a | .jmp a | .jeq a | .jne a | .not a => [regByte a]
  | .ldi a imm => [regByte a, imm]
  | .add a b | .mul a b | .mod a b | .cmp a b | .and a b | .or a b | .xor a b | .shl a b | .shr a b =>
    [regByte a, regByte b]

/-- The bytes of an instruction at ascending addresses: opcode first, then its operands (R70, R73). -/
def encode (m : OpcodeMap) (i : Instr) : List Byte := m i.operation :: i.operandBytes

/-- The length of an instruction in bytes, `1 + n` (R70). -/
def Instr.length (i : Instr) : Nat := 1 + i.operation.format.operands

/-- Decoding a list of bytes: the instruction and the bytes after it, or a rejection by name. -/
def decode (m : OpcodeMap) (bytes : List Byte) : Except DecodeReject (Instr × List Byte) := do
  let i ← decodeFrom m (fun k => (bytes[k]?).elim (.error (.noByte k)) .ok) id
  return (i, bytes.drop i.length)

/-- Byte number `k` of a table word, whose bit 0 is the least significant bit of the first byte. -/
def byteOfWord (w k : Nat) : Byte := BitVec.ofNat 8 (w / 256 ^ k)

/-- The three bytes, as the core stores them, of an instruction given as a table word of `nbits` bits: every bit
above `nbits` is 0, and three bytes is the longest instruction (R70). -/
def tableWordBytes (nbits w : Nat) : List Byte :=
  [byteOfWord (w % 2 ^ nbits) 0, byteOfWord (w % 2 ^ nbits) 1, byteOfWord (w % 2 ^ nbits) 2]

/-- The instruction the decoder reads, under the default map, from a table word. -/
def decodeTableWord (nbits w : Nat) : Option Instr :=
  match decode opcodeMap (tableWordBytes nbits w) with
  | .ok (i, _) => some i
  | .error _ => none

/-- The mnemonic of an operation (00_scope.md R13). -/
def Operation.mnemonic : Operation → String
  | .hlt => "HLT"
  | .ret => "RET"
  | .push => "PUSH"
  | .pop => "POP"
  | .prn => "PRN"
  | .call => "CALL"
  | .jmp => "JMP"
  | .jeq => "JEQ"
  | .jne => "JNE"
  | .not => "NOT"
  | .ldi => "LDI"
  | .add => "ADD"
  | .mul => "MUL"
  | .mod => "MOD"
  | .cmp => "CMP"
  | .and => "AND"
  | .or => "OR"
  | .xor => "XOR"
  | .shl => "SHL"
  | .shr => "SHR"

/-- A register operand in the spec's assembly notation (R80). -/
def regText (a : Reg) : String := "R" ++ Nat.repr a.val

/-- An instruction in the spec's assembly notation, immediates in decimal (R80; DESIGN CHOICE, safe, log 21). -/
def Instr.toAssembly (i : Instr) : String :=
  match i with
  | .hlt | .ret => i.operation.mnemonic
  | .push a | .pop a | .prn a | .call a | .jmp a | .jeq a | .jne a | .not a =>
    i.operation.mnemonic ++ " " ++ regText a
  | .ldi a imm => i.operation.mnemonic ++ " " ++ regText a ++ ", " ++ Nat.repr imm.toNat
  | .add a b | .mul a b | .mod a b | .cmp a b | .and a b | .or a b | .xor a b | .shl a b | .shr a b =>
    i.operation.mnemonic ++ " " ++ regText a ++ ", " ++ regText b

end Sys2Proof
end

