-- ==== Sys2Proof/Machine/State.lean ====
section
/-! DEFINITION. The core's state as plain data: everything 10_state.md gives it, the ways it halts
(60_exceptions.md R200-R203), and the state after reset (R37). -/

namespace Sys2Proof.Machine

/-- What an access to memory, or a computed return address, was for (00_scope.md R10, 60_exceptions.md R202). -/
inductive AccessKind
  /-- the opcode fetch (40_fetch_decode_execute.md R101) -/
  | fetch
  /-- an operand fetch (R103) -/
  | operandFetch
  /-- PUSH's write and its stack-pointer decrement (42_stack_control.md R152) -/
  | stackPush
  /-- POP's read and its stack-pointer increment (R153) -/
  | stackPop
  /-- CALL's write and its stack-pointer decrement (R154) -/
  | callPush
  /-- RET's read and its stack-pointer increment (R155) -/
  | retPop
  /-- CALL's return address, which is no access (R154) -/
  | returnAddress
deriving DecidableEq, Repr

/-- The two kinds of DecodeError (60_exceptions.md R201). -/
inductive DecodeSub
  | unknownOpcode
  | badRegister
deriving DecidableEq, Repr

/-- Why the core is Halted, with the record of each error (10_state.md R31, 60_exceptions.md R200-R203). `pc` is the
address of the instruction's opcode byte. -/
inductive HaltReason
  /-- HLT ran: the only normal end. -/
  | hlt
  /-- MOD by zero. -/
  | arithmeticFault (pc : Nat)
  /-- An unknown opcode byte or a register operand byte above 7. -/
  | decodeError (sub : DecodeSub) (byte : Byte) (pc : Nat)
  /-- A computed address outside 0..255. -/
  | outOfBoundsError (kind : AccessKind) (address : Int) (pc : Nat)
deriving DecidableEq, Repr

/-- The run state, DOC's HaltState (10_state.md R30). -/
inductive RunState
  | running
  | halted (reason : HaltReason)
deriving DecidableEq, Repr

/-- The flags register `fl`: Equal, LessThan, GreaterThan (10_state.md R28). Its bits 7:3 are not storage. -/
structure Flags where
  e : Bool
  l : Bool
  g : Bool
deriving DecidableEq, Repr

/-- Memory: (address, byte) pairs in the canonical form `Memory.wf` (Ops.lean). -/
abbrev Memory := List Host.Cell

/-- The state of the core (10_state.md, its record; 40_fetch_decode_execute.md R107: it is the whole state). -/
structure State where
  /-- `x[0..7]`, R0 to R7; R7 is the stack pointer (R20, R22). -/
  regs : Vector Byte 8
  /-- The program counter, an integer that never wraps, 0..256 in every state a step reaches (R25).
  DESIGN CHOICE (safe): a Nat and not a 9-bit vector, log 6. -/
  pc : Nat
  /-- The flags register (R28). -/
  fl : Flags
  /-- `mem[0..255]` (20_memory.md R50). -/
  mem : Memory
  /-- Running or Halted(reason) (R30). -/
  run : RunState
  /-- The output sink, first byte first (R34). DEDUCED (safe): it never refuses a byte, log 16. -/
  out : List Byte
  /-- The launch parameter `ARITH_FAULT_PC_ADVANCE` (00_scope.md R7), which no step writes.
  DESIGN CHOICE (safe): held here because `exec` sees nothing else, log 4. -/
  arithFaultPcAdvance : Bool
deriving DecidableEq, Repr

/-- Why a step does not exist. Errors of the spec are no `Fault`: they are next states with `run` Halted
(60_exceptions.md R204; DEDUCED, safe, log 5). -/
inductive Fault
  /-- Raised by `stepWith` and so by `step` alone: the core is Halted, which is terminal, and only reset leaves it
  (40_fetch_decode_execute.md R100). Safe: the hardware has no step there. -/
  | halted
deriving DecidableEq, Repr

/-- Why an instruction has no meaning in the model. -/
inductive Refusal
  /-- Raised by no arm of `exec` now: every instruction of the table has its meaning. Safe. -/
  | notModelled (mnemonic : String)
deriving DecidableEq, Repr

/-- The state right after reset, before any image is loaded (10_state.md R37, 70_reset_and_hazards.md R230): R7 = 0xF4,
pc 0, flags clear, Running, no output. DESIGN CHOICE (unsafe): R0-R6 are 0 (log 2) and memory lists nothing (log 3),
where the spec leaves `reg_init` and `mem_init` open; `State.resetWith` (Boot.lean) takes any value of them. -/
def State.reset : State where
  regs := #v[0, 0, 0, 0, 0, 0, 0, 0xF4]
  pc := 0
  fl := { e := false, l := false, g := false }
  mem := []
  run := .running
  out := []
  arithFaultPcAdvance := false

end Sys2Proof.Machine
end

