-- ==== Sys2Proof/Machine/Flags.lean ====
section
/-! DEFINITION. The one flag computation, CMP's (43_compare_branch.md R170), and the flags byte of the report
(10_state.md R28). -/

namespace Sys2Proof.Machine

/-- E, L and G of two bytes, unsigned, all three at once (R170). L means the first is less than the second.
DEDUCED (unsafe for claims about the reported L and G only): the spec's own choice D27, log 13. -/
def compareFlags (x y : Byte) : Flags where
  e := x.toNat == y.toNat
  l := decide (x.toNat < y.toNat)
  g := decide (y.toNat < x.toNat)

/-- `fl <- f`, replacing every bit (R170, 90_conflicts.md C2). -/
def State.setFl (s : State) (f : Flags) : State := { s with fl := f }

/-- The flags byte: E bit 0, G bit 1, L bit 2, bits 7:3 zero (R28). The positions are DEDUCED: the spec's own choice D12,
taken there from LS-8 (unsafe for claims about the reported byte only), log 13. -/
def Flags.toByte (f : Flags) : Byte :=
  BitVec.ofNat 8 (f.l.toNat <<< 2 ||| f.g.toNat <<< 1 ||| f.e.toNat)

end Sys2Proof.Machine
end

