-- ==== Sys2Proof/Machine/Operands.lean ====
section
/-! DEFINITION. Operand forms: a register read or written (10_state.md R20-R23), the stack pointer as R7 (R22), and the
narrowing of an exact result to a byte (41_alu.md R120). The immediate form is its byte as it is (30_encoding.md R75). -/

namespace Sys2Proof.Machine

/-- `x[r]`, read (00_scope.md R9). -/
def State.reg (s : State) (r : Reg) : Byte := s.regs[r]

/-- `x[r] <- v` (R9). No register is hard-wired or read-only (10_state.md R20, R21). -/
def State.setReg (s : State) (r : Reg) (v : Byte) : State := { s with regs := s.regs.set r v }

/-- SP_INDEX: the stack pointer is R7 (R22). -/
def spReg : Reg := 7

/-- `sp`, another name of `x[7]` (R9, R22). -/
def State.sp (s : State) : Byte := s.reg spReg

/-- `x[7] <- v` (R22). -/
def State.setSp (s : State) (v : Byte) : State := s.setReg spReg v

/-- An exact result brought into 0..255 modulo 256 (10_state.md R23). -/
def narrow (n : Nat) : Byte := BitVec.ofNat 8 n

end Sys2Proof.Machine
end

