-- ==== Sys2Proof/Machine/Ops.lean ====
section
/-! DEFINITION. The named operations every instruction is written over: memory and its checked accesses
(20_memory.md, 00_scope.md R10), the program counter (40_fetch_decode_execute.md R105), the checked stack pointer
(42_stack_control.md R150), the output sink, and raising an error (60_exceptions.md R204-R206). -/

namespace Sys2Proof.Machine

/-- MEM_SIZE (00_scope.md R7, 20_memory.md R50). -/
def memSize : Nat := 256

/-- What a byte of memory that is not listed reads as. DESIGN CHOICE (unsafe for runs from `State.reset`): 0, where the
spec leaves `mem_init` open (10_state.md R37), log 3. -/
def unlisted : Byte := 0

/-- The canonical form: addresses below MEM_SIZE and strictly rising, no byte equal to what an unlisted address
reads as. Equal memories are then equal lists. -/
abbrev Memory.wf (m : Memory) : Prop :=
  (∀ c ∈ m, c.1 < memSize ∧ c.2 ≠ unlisted) ∧ m.Pairwise fun c d => c.1 < d.1

/-- The byte at an address (20_memory.md R53). -/
def Memory.read : Memory → Nat → Byte
  | [], _ => unlisted
  | (b, v) :: rest, a => if b = a then v else Memory.read rest a

/-- The memory without a listed byte at `a`. -/
def Memory.erase (m : Memory) (a : Nat) : Memory := m.filter fun c => c.1 != a

/-- The memory with `(a, v)` listed in its place, before the first higher address. -/
def Memory.insert (a : Nat) (v : Byte) : Memory → Memory
  | [] => [(a, v)]
  | c :: rest => if a < c.1 then (a, v) :: c :: rest else c :: Memory.insert a v rest

/-- `mem[a] <- v`, and no other cell changes (R53). -/
def Memory.write (m : Memory) (a : Nat) (v : Byte) : Memory :=
  if v = unlisted then m.erase a else Memory.insert a v (m.erase a)

/-- Bytes written at ascending addresses from `a`, as far as memory reaches. -/
def Memory.writeFrom (m : Memory) (a : Nat) : List Byte → Memory
  | [] => m
  | b :: rest => Memory.writeFrom (if a < memSize then m.write a b else m) (a + 1) rest

/-- The memory after a change of it alone. -/
def State.setMem (s : State) (m : Memory) : State := { s with mem := m }

/-- The address check every access passes first (00_scope.md R10, 20_memory.md R51): an address outside 0..255 is
OutOfBoundsError with the access's kind, the address and the instruction's own address. -/
def State.checkAddress (s : State) (kind : AccessKind) (a : Int) : Except HaltReason Nat :=
  if a < 0 ∨ 255 < a then .error (.outOfBoundsError kind a s.pc) else .ok a.toNat

/-- `MemRead(a, 1)` (R10). -/
def State.memRead (s : State) (kind : AccessKind) (a : Int) : Except HaltReason Byte := do
  let k ← s.checkAddress kind a
  return s.mem.read k

/-- `MemWrite(a, 1, v)` (R10). -/
def State.memWrite (s : State) (kind : AccessKind) (a : Int) (v : Byte) : Except HaltReason State := do
  let k ← s.checkAddress kind a
  return s.setMem (s.mem.write k v)

/-- The default advance `pc <- pc + 1 + n`, never wrapped (40_fetch_decode_execute.md R105, 10_state.md R25). -/
def State.advance (s : State) (n : Nat) : State := { s with pc := s.pc + 1 + n }

/-- `pc <- v`: an assigned program counter, which replaces the advance (R105). -/
def State.jump (s : State) (v : Byte) : State := { s with pc := v.toNat }

/-- `x[7] <- x[7] - 1`, which must stay at least 0 (42_stack_control.md R150). -/
def State.decSp (s : State) (kind : AccessKind) : Except HaltReason State :=
  let t : Int := s.sp.toNat - 1
  if t < 0 then .error (.outOfBoundsError kind t s.pc) else .ok (s.setSp (BitVec.ofInt 8 t))

/-- `x[7] <- x[7] + 1`, which must stay at most 255 (R150; the bound is DEDUCED, safe: the spec's own choice D22, log 12). -/
def State.incSp (s : State) (kind : AccessKind) : Except HaltReason State :=
  let t : Int := s.sp.toNat + 1
  if 255 < t then .error (.outOfBoundsError kind t s.pc) else .ok (s.setSp (BitVec.ofInt 8 t))

/-- `emit(v)`: one byte more at the end of the output sink, which never refuses it (10_state.md R34, R44). -/
def State.emit (s : State) (v : Byte) : State := { s with out := s.out ++ [v] }

/-- `halt(reason)`: the run state set to Halted (00_scope.md R9). -/
def State.halt (s : State) (r : HaltReason) : State := { s with run := .halted r }

/-- Taking an error, the core's only exception mechanism (60_exceptions.md R204-R206): the run ends with the reason,
and nothing else changes. `s` is the state before the instruction, so none of its writes take effect: errors are
precise (R205, DEDUCED: the spec's own choice D5, unsafe for claims about the state after an error, log 9). No handler, no saved register, no return (R209). -/
def raise (r : HaltReason) (s : State) : Host.Outcome State Fault Refusal := .next (s.halt r)

/-- The end of an instruction that began in `s`: its result, or the error it raised, taken in `s` (R205). -/
def settle (s : State) : Except HaltReason State → Host.Outcome State Fault Refusal
  | .ok t => .next t
  | .error r => raise r s

/-- The halt record of a decoder's rejection at the instruction's address (60_exceptions.md R201, R202). A missing
byte does not arise from memory, whose reader answers every byte or its own error. -/
def State.rejectRecord (s : State) : DecodeReject → HaltReason
  | .unknownOpcode op => .decodeError .unknownOpcode op s.pc
  | .badRegister b => .decodeError .badRegister b s.pc
  | .noByte k => .outOfBoundsError .operandFetch (s.pc + k) s.pc

/-- The read of byte number `k` of the instruction at `pc`: kind Fetch for the opcode, OperandFetch for the rest
(40_fetch_decode_execute.md R101, R103). -/
def State.readCode (s : State) (k : Nat) : Except HaltReason Byte :=
  s.memRead (if k = 0 then .fetch else .operandFetch) (s.pc + k)

/-- Fetch, decode, operand fetch and operand check of the instruction at `pc` (R101-R104). -/
def fetchInstr (m : OpcodeMap) (s : State) : Except HaltReason Instr :=
  decodeFrom m s.readCode s.rejectRecord

end Sys2Proof.Machine
end

