-- ==== Sys2Proof/Machine/Alu.lean ====
section
/-! DEFINITION. The ALU instructions (41_alu.md R120-R129): both sources are read before the one write, the result is
narrowed modulo 256, and flags, memory and output stay. -/

namespace Sys2Proof.Machine

/-- The shape of every binary ALU instruction: `x[a] <- f(x[a], x[b])`, then the advance past three bytes (R120). -/
def aluBinary (f : Byte → Byte → Byte) (a b : Reg) (s : State) : State :=
  (s.setReg a (f (s.reg a) (s.reg b))).advance 2

/-- The sum modulo 256 (R121). -/
def aluAdd (x y : Byte) : Byte := narrow (x.toNat + y.toNat)

/-- The low byte of the product (R122). -/
def aluMul (x y : Byte) : Byte := narrow (x.toNat * y.toNat)

/-- The unsigned remainder, for a divisor that is not 0 (R123). -/
def aluMod (x y : Byte) : Byte := narrow (x.toNat % y.toNat)

/-- Bitwise AND (R124). -/
def aluAnd (x y : Byte) : Byte := x &&& y

/-- Bitwise inclusive OR (R125). -/
def aluOr (x y : Byte) : Byte := x ||| y

/-- Bitwise exclusive OR (R126). -/
def aluXor (x y : Byte) : Byte := x ^^^ y

/-- Bitwise complement, `255 - x` (R127). -/
def aluNot (x : Byte) : Byte := narrow (255 - x.toNat)

/-- Shift left by the whole byte `y`, not masked (R128). -/
def aluShl (x y : Byte) : Byte := narrow (x.toNat * 2 ^ y.toNat)

/-- Logical shift right by the whole byte `y`, not masked (R129). -/
def aluShr (x y : Byte) : Byte := narrow (x.toNat / 2 ^ y.toNat)

/-- ADD (R121). -/
def execAdd (a b : Reg) (s : State) : Host.Outcome State Fault Refusal := .next (aluBinary aluAdd a b s)

/-- MUL (R122). -/
def execMul (a b : Reg) (s : State) : Host.Outcome State Fault Refusal := .next (aluBinary aluMul a b s)

/-- MOD by zero (60_exceptions.md R203): a controlled halt whose record is the MOD's address; `x[a]` is not written, and
`pc` stays or passes the MOD as the launch parameter says (decision D6; DESIGN CHOICE, safe: the parameter is a State field, log 4). -/
def raiseArithmeticFault (s : State) : Host.Outcome State Fault Refusal :=
  raise (.arithmeticFault s.pc) (if s.arithFaultPcAdvance then s.advance 2 else s)

/-- MOD (R123). -/
def execMod (a b : Reg) (s : State) : Host.Outcome State Fault Refusal :=
  if s.reg b = 0 then raiseArithmeticFault s else .next (aluBinary aluMod a b s)

/-- AND (R124). -/
def execAnd (a b : Reg) (s : State) : Host.Outcome State Fault Refusal := .next (aluBinary aluAnd a b s)

/-- OR (R125). -/
def execOr (a b : Reg) (s : State) : Host.Outcome State Fault Refusal := .next (aluBinary aluOr a b s)

/-- XOR (R126). -/
def execXor (a b : Reg) (s : State) : Host.Outcome State Fault Refusal := .next (aluBinary aluXor a b s)

/-- NOT, one operand (R127, 90_conflicts.md C1). -/
def execNot (a : Reg) (s : State) : Host.Outcome State Fault Refusal :=
  .next ((s.setReg a (aluNot (s.reg a))).advance 1)

/-- SHL (R128). -/
def execShl (a b : Reg) (s : State) : Host.Outcome State Fault Refusal := .next (aluBinary aluShl a b s)

/-- SHR (R129). -/
def execShr (a b : Reg) (s : State) : Host.Outcome State Fault Refusal := .next (aluBinary aluShr a b s)

end Sys2Proof.Machine
end

