-- ==== Sys2Proof/Machine/Branch.lean ====
section
/-! DEFINITION. Compare and branch (43_compare_branch.md R170-R174): targets are absolute, from a register, and the only
conditions are E and not E. -/

namespace Sys2Proof.Machine

/-- CMP: the flags replaced by those of `x[a]` and `x[b]` (R170). -/
def execCmp (a b : Reg) (s : State) : Host.Outcome State Fault Refusal :=
  .next ((s.setFl (compareFlags (s.reg a) (s.reg b))).advance 2)

/-- A conditional jump: to `x[a]` when taken, else the default advance (R172, R173, 90_conflicts.md C10). -/
def jumpIf (c : Bool) (a : Reg) (s : State) : State := if c then s.jump (s.reg a) else s.advance 1

/-- JMP (R171). -/
def execJmp (a : Reg) (s : State) : Host.Outcome State Fault Refusal := .next (s.jump (s.reg a))

/-- JEQ: taken when E is 1 (R172). -/
def execJeq (a : Reg) (s : State) : Host.Outcome State Fault Refusal := .next (jumpIf s.fl.e a s)

/-- JNE: taken when E is 0 (R173). -/
def execJne (a : Reg) (s : State) : Host.Outcome State Fault Refusal := .next (jumpIf (!s.fl.e) a s)

end Sys2Proof.Machine
end

