-- ==== Sys2Proof/Machine/Misc.lean ====
section
/-! DEFINITION. Load-immediate, output and halt (44_load_output_halt.md R190-R193). -/

namespace Sys2Proof.Machine

/-- LDI: `x[a] <- imm`, R7 included and unchecked (R191). -/
def execLdi (a : Reg) (imm : Byte) (s : State) : Host.Outcome State Fault Refusal :=
  .next ((s.setReg a imm).advance 2)

/-- PRN: the register's byte to the output sink (R192). -/
def execPrn (a : Reg) (s : State) : Host.Outcome State Fault Refusal := .next ((s.emit (s.reg a)).advance 1)

/-- HLT: Halted(Hlt), with the default advance still made (R193, 40_fetch_decode_execute.md R106). -/
def execHlt (s : State) : Host.Outcome State Fault Refusal := .next ((s.halt .hlt).advance 0)

end Sys2Proof.Machine
end

