-- ==== Sys2Proof/Machine/Stack.lean ====
section
/-! DEFINITION. The stack and call instructions (42_stack_control.md R150-R155). The steps run in the spec's order, a
later one seeing the earlier one's writes (00_scope.md R11; the reading of R7 as an operand is DEDUCED: the
spec's own choice D21, unsafe for PUSH R7, POP R7 and CALL R7, log 8); an error undoes them all, through `settle`. -/

namespace Sys2Proof.Machine

/-- PUSH: decrement `sp`, then write `x[a]`, read after the decrement, at the new `sp` (R152). -/
def execPush (a : Reg) (s : State) : Host.Outcome State Fault Refusal := settle s do
  let s1 ← s.decSp .stackPush
  let s2 ← s1.memWrite .stackPush s1.sp.toNat (s1.reg a)
  return s2.advance 1

/-- POP: read at `sp` into `x[a]`, then increment `x[7]`, read after the write of `x[a]` (R153). -/
def execPop (a : Reg) (s : State) : Host.Outcome State Fault Refusal := settle s do
  let v ← s.memRead .stackPop s.sp.toNat
  let s1 ← (s.setReg a v).incSp .stackPop
  return s1.advance 1

/-- CALL's return address `pc + 2`, which must be an address (R154; DEDUCED, safe: the spec's own choice D8, log 12). -/
def State.returnAddress (s : State) : Except HaltReason Byte := do
  let r ← s.checkAddress .returnAddress (s.pc + 2)
  return BitVec.ofNat 8 r

/-- CALL: decrement `sp`, write the return address at the new `sp`, then jump to `x[a]`, read after the decrement
(R154). The stack check comes before the return-address check (60_exceptions.md R207). -/
def execCall (a : Reg) (s : State) : Host.Outcome State Fault Refusal := settle s do
  let s1 ← s.decSp .callPush
  let r ← s.returnAddress
  let s2 ← s1.memWrite .callPush s1.sp.toNat r
  return s2.jump (s2.reg a)

/-- RET: read at `sp` into `pc`, then increment `sp` (R155). -/
def execRet (s : State) : Host.Outcome State Fault Refusal := settle s do
  let v ← s.memRead .retPop s.sp.toNat
  let s1 ← s.incSp .retPop
  return s1.jump v

end Sys2Proof.Machine
end

