-- ==== Sys2Proof/Machine/Cycle.lean ====
section
/-! DEFINITION. The fetch-decode-execute cycle (40_fetch_decode_execute.md R100-R109), under any opcode map. -/

namespace Sys2Proof.Machine

/-- One step under an opcode map. Halted has no step (R100); an error of the fetch phases is taken where the
instruction stands (R101-R104, R108); else the instruction runs (R105). -/
def stepWith (m : OpcodeMap) (s : State) : Host.Outcome State Fault Refusal :=
  match s.run with
  | .halted _ => .fault .halted
  | .running =>
    match fetchInstr m s with
    | .error r => raise r s
    | .ok i => exec i s

/-- A Running state with bytes stored from `pc` on, as far as memory reaches (DESIGN CHOICE, safe, log 14). -/
def State.placeCode (s : State) (bytes : List Byte) : State :=
  { s with mem := s.mem.writeFrom s.pc bytes, run := .running }

end Sys2Proof.Machine
end

