-- ==== Sys2Proof/Machine/Step.lean ====
section
/-! DEFINITION. The step, and the placing of one instruction where the next step fetches. -/

namespace Sys2Proof.Machine

/-- One step under the default opcode map (30_encoding.md R76; log 1). -/
def step (s : State) : Host.Outcome State Fault Refusal := stepWith opcodeMap s

/-- `s` with a table word stored where the next step fetches, and Running, so that the step fetches and runs it. It
stands for the Loader (70_reset_and_hazards.md R233); DESIGN CHOICE (safe), log 14. -/
def State.withFetchWord (s : State) (nbits w : Nat) : State := s.placeCode (tableWordBytes nbits w)

end Sys2Proof.Machine
end

