-- ==== Sys2Proof/Machine/Boot.lean ====
section
/-! DEFINITION. Reset with the launch parameters the spec leaves open, and the load port (10_state.md R37, R41, R42;
70_reset_and_hazards.md R230-R233). -/

namespace Sys2Proof.Machine

/-- SP_RESET (00_scope.md R7). -/
def spReset : Byte := 0xF4

/-- The registers after reset: `reg_init` in R0 to R6, SP_RESET in R7 (10_state.md R37). -/
def resetRegs (regInit : Fin 7 → Byte) : Vector Byte 8 :=
  Vector.ofFn fun r => if h : r.val < 7 then regInit ⟨r.val, h⟩ else spReset

/-- Memory after reset: `mem_init` in every cell (R37). -/
def resetMem (memInit : Fin 256 → Byte) : Memory := Memory.writeFrom [] 0 (List.ofFn memInit)

/-- The state after reset, for any launch parameters (R37, R41, 70_reset_and_hazards.md R230). Nothing of an earlier
run is an argument: nothing survives one. -/
def State.resetWith (p : LaunchParams) : State where
  regs := resetRegs p.regInit
  pc := 0
  fl := { e := false, l := false, g := false }
  mem := resetMem p.memInit
  run := .running
  out := []
  arithFaultPcAdvance := p.arithFaultPcAdvance

/-- The load port: an image of at most 256 bytes written from address 0, unchecked otherwise (10_state.md R42,
70_reset_and_hazards.md R233). A longer one cannot be loaded. When the port is open is said in Block.lean. -/
def State.loadImage (s : State) (image : List Byte) : Option State :=
  if image.length ≤ memSize then some (s.setMem (s.mem.writeFrom 0 image)) else none

/-- The state before the first step of a run: reset, then load (70_reset_and_hazards.md R231). -/
def launch (p : LaunchParams) (image : List Byte) : Option State := (State.resetWith p).loadImage image

/-- The launch parameters `State.reset` takes: the open values at 0 (DESIGN CHOICE, unsafe, logs 2 and 3) and the
spec's default of ARITH_FAULT_PC_ADVANCE (00_scope.md R7). -/
def defaultLaunch : LaunchParams where
  regInit _ := 0
  memInit _ := unlisted
  arithFaultPcAdvance := false

end Sys2Proof.Machine
end

