-- ==== Sys2Proof/Machine/Report.lean ====
section
/-! DEFINITION. The output port and the status and report port (10_state.md R44, R45; 60_exceptions.md R200, R210). -/

namespace Sys2Proof.Machine

/-- The reason code on the status port (60_exceptions.md R200; the numbers are DEDUCED: the spec's own choice D16, unsafe
for claims about the code only, log 13). -/
def statusCode : RunState → Nat
  | .running => 0
  | .halted .hlt => 1
  | .halted (.arithmeticFault _) => 2
  | .halted (.decodeError _ _ _) => 3
  | .halted (.outOfBoundsError _ _ _) => 4

/-- The final-state report (R210). -/
structure Report where
  reason : HaltReason
  code : Nat
  pc : Nat
  regs : Vector Byte 8
  flags : Byte
  mem : List Byte
  out : List Byte
deriving DecidableEq, Repr

/-- The report port: nothing while Running, the whole report once Halted (10_state.md R45, R210). -/
def State.report (s : State) : Option Report :=
  match s.run with
  | .running => none
  | .halted r => some {
      reason := r
      code := statusCode s.run
      pc := s.pc
      regs := s.regs
      flags := s.fl.toByte
      mem := (List.range memSize).map s.mem.read
      out := s.out }

/-- The bytes that leave through the output port when a step goes from `s` to `t`, in program order (10_state.md R44). -/
def emitted (s t : State) : List Byte := t.out.drop s.out.length

end Sys2Proof.Machine
end

