-- ==== Sys2Proof/Machine/Block.lean ====
section
/-! DEFINITION. The block with its host-side interfaces (10_state.md R40-R45): reset, load port, run control with the
optional ceiling, and the order of start-up (70_reset_and_hazards.md R231). The host acts only between steps (R237). -/

namespace Sys2Proof.Machine

/-- How far the start-up of a run has come (70_reset_and_hazards.md R231). -/
inductive Phase
  /-- Reset is done and no image is in memory: the load port is open (10_state.md R42). -/
  | awaitingImage
  /-- The image is in memory and no step was taken. -/
  | loaded
  /-- The Loader reported LoadError: the core never starts (R231). -/
  | loadFailed
  /-- The first step was taken: the load port is closed (10_state.md R42). -/
  | started
deriving DecidableEq, Repr

/-- The core and what the host's side keeps of a run. `phase`, `ceiling` and `taken` are no state of the core
(DESIGN CHOICE, safe, log 15). -/
structure Block where
  /-- The core. -/
  core : State
  /-- How far the start-up has come. -/
  phase : Phase
  /-- The instruction-count ceiling, if the host set one (R43). -/
  ceiling : Option Nat
  /-- The steps taken since reset. -/
  taken : Nat
deriving DecidableEq, Repr

/-- What the host and its Loader can do (R40-R43). -/
inductive HostAction
  /-- Assert reset, with the launch parameters of the new run (R41). -/
  | reset (p : LaunchParams)
  /-- Write the image through the load port (R42). -/
  | load (image : List Byte)
  /-- The Loader reports LoadError in place of an image: missing or unreadable (R42). -/
  | loadError
  /-- Set the ceiling (R43). -/
  | setCeiling (n : Nat)
  /-- Let the core take one step (R43). -/
  | step

/-- Why a host action does nothing. -/
inductive HostReject
  /-- No image was loaded yet, and the action comes after the load in the order of start-up (70_reset_and_hazards.md
  R231). -/
  | notLoaded
  /-- The image of this run is in memory already. -/
  | alreadyLoaded
  /-- The Loader reported LoadError, and the core never starts: only reset goes on (R231). -/
  | loadFailed
  /-- A step was taken: the load port accepts no writes (10_state.md R42), and the time to set the ceiling is over
  (R231). -/
  | alreadyStarted
  /-- The image is longer than memory: a Loader error, outside the core (R42). -/
  | imageTooLong
  /-- The ceiling is reached: the run is stopped, with `run` still Running (R43). -/
  | ceilingReached
  /-- The core is Halted, at its ceiling or not (40_fetch_decode_execute.md R100). -/
  | coreHalted
deriving DecidableEq, Repr

/-- Whether the steps taken have reached the ceiling (R43). -/
def Block.atCeiling (b : Block) : Bool := b.ceiling.any fun n => decide (n ≤ b.taken)

/-- The block right after reset (10_state.md R41, 70_reset_and_hazards.md R230). -/
def Block.reset (p : LaunchParams) : Block where
  core := State.resetWith p
  phase := .awaitingImage
  ceiling := none
  taken := 0

/-- A write to the load port (10_state.md R42, 70_reset_and_hazards.md R233). DESIGN CHOICE (safe): one image per reset.
The spec is silent on a second load, and the model refuses it, so that every cell past the image keeps `mem_init`; an
image that is too long leaves the port open, log 23. -/
def Block.load (b : Block) (image : List Byte) : Except HostReject Block :=
  match b.phase with
  | .awaitingImage =>
    match b.core.loadImage image with
    | some s => .ok { b with core := s, phase := .loaded }
    | none => .error .imageTooLong
  | .loaded => .error .alreadyLoaded
  | .loadFailed => .error .loadFailed
  | .started => .error .alreadyStarted

/-- The Loader's LoadError, after which the core never starts (10_state.md R42, 70_reset_and_hazards.md R231).
DESIGN CHOICE (safe): it comes in place of a load, and no load follows it before reset, log 23. -/
def Block.failLoad (b : Block) : Except HostReject Block :=
  match b.phase with
  | .awaitingImage => .ok { b with phase := .loadFailed }
  | .loaded => .error .alreadyLoaded
  | .loadFailed => .error .loadFailed
  | .started => .error .alreadyStarted

/-- The ceiling set, after the load and before the first step (70_reset_and_hazards.md R231). DEDUCED (safe): at no other
time; DESIGN CHOICE (safe): a later setting replaces an earlier one, log 15. -/
def Block.setCeiling (b : Block) (n : Nat) : Except HostReject Block :=
  match b.phase with
  | .awaitingImage => .error .notLoaded
  | .loaded => .ok { b with ceiling := some n }
  | .loadFailed => .error .loadFailed
  | .started => .error .alreadyStarted

/-- One step of a core whose image is loaded. A Halted core has none, whatever the ceiling
(40_fetch_decode_execute.md R100); a Running one is stopped at its ceiling (10_state.md R43). -/
def Block.run (b : Block) : Except HostReject Block :=
  match Sys2Proof.Machine.step b.core with
  | .fault _ | .refused _ => .error .coreHalted
  | .next t =>
    if b.atCeiling then .error .ceilingReached
    else .ok { b with core := t, phase := .started, taken := b.taken + 1 }

/-- A host action between two steps, in the order of start-up (R40-R43, 70_reset_and_hazards.md R231). That no step
comes before the load is DEDUCED (safe) from that order, log 23. -/
def Block.act (b : Block) : HostAction → Except HostReject Block
  | .reset p => .ok (Block.reset p)
  | .load image => b.load image
  | .loadError => b.failLoad
  | .setCeiling n => b.setCeiling n
  | .step =>
    match b.phase with
    | .awaitingImage => .error .notLoaded
    | .loadFailed => .error .loadFailed
    | .loaded | .started => b.run

end Sys2Proof.Machine
end

