-- ==== Sys2Proof/WellFormed.lean ====
section
/-! DEFINITION. Well-formedness. The types of `Instr` leave no ill-formed instruction, so the checks are about
what comes before it: an opcode map a model may use (30_encoding.md R77), and a list of bytes that is the
encoding of one instruction (R70-R74, R78). They are written apart from the decoder, to be compared with it. -/

namespace Sys2Proof

/-- The constraints on `OPCODE_MAP` (R77): distinct bytes, top bits that equal the operand count, never 0b11. -/
structure OpcodeMap.Legal (m : OpcodeMap) : Prop where
  distinct : ∀ o o' : Operation, m o = m o' → o = o'
  counts : ∀ o : Operation, operandCount (m o) = o.format.operands
  noThree : ∀ o : Operation, operandCount (m o) ≠ 3

/-- R77, constraint 1, as a check. -/
def OpcodeMap.distinctCheck (m : OpcodeMap) : Bool :=
  Operation.all.all fun o => Operation.all.all fun o' => m o != m o' || o == o'

/-- R77, constraint 2, as a check. -/
def OpcodeMap.countsCheck (m : OpcodeMap) : Bool :=
  Operation.all.all fun o => operandCount (m o) == o.format.operands

/-- R77, constraint 3, as a check. -/
def OpcodeMap.noThreeCheck (m : OpcodeMap) : Bool :=
  Operation.all.all fun o => operandCount (m o) != 3

/-- R77 as a check. -/
def OpcodeMap.legalCheck (m : OpcodeMap) : Bool := m.distinctCheck && m.countsCheck && m.noThreeCheck

/-- The opcode byte is a key of the table (R72, R78). -/
def opcodeRecognized (m : OpcodeMap) (op : Byte) : Bool := (m.lookup op).isSome

/-- As many operand bytes follow as the opcode's top bits say (R71). -/
def operandCountMatches (op : Byte) (operands : List Byte) : Bool := operands.length == operandCount op

/-- Every operand byte in a register's place is at most 7 (R73, R74). -/
def registersInRange (m : OpcodeMap) (op : Byte) (operands : List Byte) : Bool :=
  match m.lookup op with
  | none => false
  | some o => (operands.take o.format.registers).all fun b => b.toNat ≤ 7

/-- The bytes are the encoding of one instruction and nothing more. -/
def wellFormed (m : OpcodeMap) : List Byte → Bool
  | [] => false
  | op :: operands =>
    opcodeRecognized m op && operandCountMatches op operands && registersInRange m op operands

end Sys2Proof
end

