-- ==== Sys2Proof/Safety.lean ====
section
/-! DEFINITION. The terms claims are stated in: how a run ends (40_fetch_decode_execute.md R110), what an instruction
leaves unchanged, and the invariant every step keeps. -/

namespace Sys2Proof.Machine

/-- The ways a run stands (40_fetch_decode_execute.md R110). -/
inductive RunEnd
  | normal
  | controlledFault
  | fatalError
  | notEnded
deriving DecidableEq, Repr

/-- How a run state counts under R110: only `Halted(Hlt)` is a normal end. -/
def runEnd : RunState → RunEnd
  | .running => .notEnded
  | .halted .hlt => .normal
  | .halted (.arithmeticFault _) => .controlledFault
  | .halted (.decodeError _ _ _) => .fatalError
  | .halted (.outOfBoundsError _ _ _) => .fatalError

/-- The core after at most `n` steps, stopped early where a step does not exist: a run under the host's ceiling
(10_state.md R43). -/
def runUpTo (m : OpcodeMap) : Nat → State → State
  | 0, s => s
  | n + 1, s =>
    match stepWith m s with
    | .next t => runUpTo m n t
    | .fault _ | .refused _ => s

/-- Every register but those of `rs` is the same. -/
def SameRegsBut (rs : List Reg) (s t : State) : Prop := ∀ r : Reg, r ∉ rs → t.reg r = s.reg r

/-- Every byte of memory but those at the addresses of `as` reads the same. -/
def SameMemBut (as : List Nat) (s t : State) : Prop := ∀ a : Nat, a ∉ as → t.mem.read a = s.mem.read a

/-- The flags, the run state, the output sink and the launch parameter are the same. -/
structure SameControl (s t : State) : Prop where
  fl : t.fl = s.fl
  run : t.run = s.run
  out : t.out = s.out
  arithFaultPcAdvance : t.arithFaultPcAdvance = s.arithFaultPcAdvance

/-- A step that changes one register and moves `pc` past `len` bytes, and nothing else. -/
structure RegisterOnly (a : Reg) (len : Nat) (s t : State) : Prop where
  regs : SameRegsBut [a] s t
  mem : SameMemBut [] s t
  control : SameControl s t
  pc : t.pc = s.pc + len

/-- The bytes of memory from `pc` to its end, those an instruction at `pc` is decoded from. -/
def codeBytes (s : State) : List Byte := (List.range (memSize - s.pc)).map fun k => s.mem.read (s.pc + k)

/-- The bytes of an instruction stand at `pc`, all inside memory. -/
def CodeAt (m : OpcodeMap) (i : Instr) (s : State) : Prop :=
  s.pc + (encode m i).length ≤ memSize ∧
    ∀ (k : Nat) (h : k < (encode m i).length), s.mem.read (s.pc + k) = (encode m i)[k]

/-- The registers an instruction may write (10_state.md R21). -/
def destinations : Instr → List Reg
  | .hlt | .prn _ | .jmp _ | .jeq _ | .jne _ | .cmp _ _ => []
  | .ret | .push _ | .call _ => [spReg]
  | .pop a => [a, spReg]
  | .not a | .ldi a _ | .add a _ | .mul a _ | .mod a _ | .and a _ | .or a _ | .xor a _ | .shl a _ | .shr a _ => [a]

/-- The addresses an instruction may store to, from the state it begins in (20_memory.md R52). -/
def storesTo (s : State) : Instr → List Nat
  | .push _ | .call _ => [s.sp.toNat - 1]
  | _ => []

/-- The bytes an instruction appends to the output sink (44_load_output_halt.md R192). -/
def emits (s : State) : Instr → List Byte
  | .prn a => [s.reg a]
  | _ => []

/-- The instruction assigns `pc` in this state instead of taking the default advance (40_fetch_decode_execute.md R105). -/
def assignsPc (s : State) : Instr → Bool
  | .call _ | .ret | .jmp _ => true
  | .jeq _ => s.fl.e
  | .jne _ => !s.fl.e
  | _ => false

/-- The instruction's address in a halt record; HLT's reason has no record (60_exceptions.md R201-R203). -/
def recordPc : HaltReason → Option Nat
  | .hlt => none
  | .arithmeticFault p => some p
  | .decodeError _ _ p => some p
  | .outOfBoundsError _ _ p => some p

/-- At most one of E, L, G is set: none after reset, exactly one after a CMP (43_compare_branch.md R170). -/
def Flags.AtMostOne (f : Flags) : Prop := f.e.toNat + f.l.toNat + f.g.toNat ≤ 1

/-- A halt record that agrees with the program counter it left (60_exceptions.md R201-R205, 40_fetch_decode_execute.md
R106): an error's record names the address `pc` still holds, an out-of-bounds record names an address outside 0..255. -/
def RecordAgrees (s : State) : Prop :=
  match s.run with
  | .running => True
  | .halted .hlt => 1 ≤ s.pc
  | .halted (.arithmeticFault p) => s.pc = if s.arithFaultPcAdvance then p + 3 else p
  | .halted (.decodeError _ _ p) => s.pc = p ∧ p ≤ 255
  | .halted (.outOfBoundsError _ a p) => s.pc = p ∧ (a < 0 ∨ 255 < a)

/-- What every state of a run satisfies. -/
structure State.Inv (s : State) : Prop where
  /-- `pc` is 0..256 (10_state.md R25). -/
  pcInRange : s.pc ≤ 256
  /-- Memory is in canonical form, inside the address space (20_memory.md R50). -/
  memCanonical : s.mem.wf
  /-- At most one flag is set. -/
  flagsAtMostOne : s.fl.AtMostOne
  /-- The halt record agrees with `pc`. -/
  recordAgrees : RecordAgrees s

/-- Where a block stands in the one run its core is in (70_reset_and_hazards.md R231, 40_fetch_decode_execute.md R110): before
the load, the reset state; after it, a launched state; after steps, that many steps of one launched state, no more than
the ceiling. -/
structure Block.Inv (b : Block) : Prop where
  /-- The core's state, by the phase of the start-up. -/
  standing : match b.phase with
    | .awaitingImage | .loadFailed => ∃ p, b.core = State.resetWith p ∧ b.taken = 0
    | .loaded => ∃ p image, launch p image = some b.core ∧ b.taken = 0
    | .started => ∃ p image s, launch p image = some s ∧ b.core = runUpTo opcodeMap b.taken s ∧ 1 ≤ b.taken
  /-- No more steps than the ceiling. -/
  underCeiling : ∀ n, b.ceiling = some n → b.taken ≤ n

end Sys2Proof.Machine
end

