-- ==== Sys2Proof/Certificates/Slice0/Obligations.lean ====
section
/-! DEFINITION. The statements for the provers, from the spec's numbered rules. Each docstring names the rules it
formalises, and the log entry or decision where a clause rests on a choice. -/

open Sys2Proof Sys2Proof.Machine

/-! ## Reset and launch -/

/-- 10_state.md R37, R42, 70_reset_and_hazards.md R230-R233: what reset and loading an image leave, for all launch
parameters. `fl = 0` is the spec's own choice D10 (log 7); the image bound is D19. -/
def Obligations.LaunchLeavesTheResetValuesAndTheImage : Prop :=
  ∀ (p : LaunchParams) (image : List Byte),
    if h : image.length ≤ 256 then
      ∃ s, launch p image = some s ∧ s.pc = 0 ∧ s.sp.toNat = 0xF4 ∧ s.run = .running ∧ s.out = [] ∧
        s.fl.e = false ∧ s.fl.l = false ∧ s.fl.g = false ∧
        (∀ r : Fin 7, s.reg (r.castSucc) = p.regInit r) ∧
        (∀ a : Fin 256, s.mem.read a = if hn : a.val < image.length then image[a.val] else p.memInit a) ∧
        s.arithFaultPcAdvance = p.arithFaultPcAdvance
    else launch p image = none

/-- Derived: the invariant of Safety.lean holds in the reset state. That memory is canonical is a clause of the model's own
list form (DESIGN CHOICE, log 3), and that the flags are clear is the spec's own choice D10 (log 7). -/
def Obligations.ResetStateHasTheInvariant : Prop := State.reset.Inv

/-! ## The step -/

/-- 40_fetch_decode_execute.md R105, R109: where the bytes at `pc` decode to an instruction, the step is that
instruction's meaning in the same state. -/
def Obligations.StepRunsTheDecodedInstruction : Prop :=
  ∀ (s : State) (i : Instr) (rest : List Byte), s.run = .running →
    decode opcodeMap (codeBytes s) = .ok (i, rest) → step s = exec i s

/-- R105, R109 under every legal opcode map (30_encoding.md R77): where an instruction's bytes stand at `pc`, the step
is its meaning. -/
def Obligations.StepRunsTheStoredInstruction : Prop :=
  ∀ (m : OpcodeMap) (s : State) (i : Instr), m.Legal → s.run = .running → CodeAt m i s → stepWith m s = exec i s

/-- 10_state.md R30, 40_fetch_decode_execute.md R100: a Running core always has a step, and a Halted one never. -/
def Obligations.StepExistsExactlyWhileRunning : Prop :=
  ∀ (m : OpcodeMap) (s : State),
    (s.run = .running → ∃ t, stepWith m s = .next t) ∧ (∀ r, s.run = .halted r → stepWith m s = .fault .halted)

/-- 40_fetch_decode_execute.md R101: a fetch at `pc` 256 raises OutOfBoundsError(Fetch, 256), and nothing else changes. -/
def Obligations.FetchAt256IsOutOfBounds : Prop :=
  ∀ (m : OpcodeMap) (s : State), s.run = .running → s.pc = 256 →
    stepWith m s = .next (s.halt (.outOfBoundsError .fetch 256 256))

/-- R102, 30_encoding.md R78: an opcode byte outside the table is a DecodeError, wherever it stands; that no operand
byte is fetched first is the spec's own choice D4 (log 10). -/
def Obligations.UnknownOpcodeIsADecodeError : Prop :=
  ∀ (m : OpcodeMap) (s : State), s.run = .running → s.pc ≤ 255 → m.lookup (s.mem.read s.pc) = none →
    stepWith m s = .next (s.halt (.decodeError .unknownOpcode (s.mem.read s.pc) s.pc))

/-- R103: an instruction whose last byte would lie past 255 faults with the first operand address past it, which is 256,
before any operand is checked (the order is D4, log 10). -/
def Obligations.OperandFetchPast255IsOutOfBounds : Prop :=
  ∀ (m : OpcodeMap) (s : State) (o : Operation), m.Legal → s.run = .running → s.pc ≤ 255 →
    s.mem.read s.pc = m o → 255 < s.pc + o.format.operands →
    stepWith m s = .next (s.halt (.outOfBoundsError .operandFetch 256 s.pc))

/-- R104, 30_encoding.md R74 (the spec's own choice D3, log 11): a register operand byte above 7 is a DecodeError, the
first operand checked before the second; an immediate is not checked. -/
def Obligations.BadRegisterByteIsADecodeError : Prop :=
  ∀ (m : OpcodeMap) (s : State) (o : Operation), m.Legal → s.run = .running →
    s.pc + o.format.operands ≤ 255 → s.mem.read s.pc = m o →
    if 1 ≤ o.format.registers ∧ 7 < (s.mem.read (s.pc + 1)).toNat then
      stepWith m s = .next (s.halt (.decodeError .badRegister (s.mem.read (s.pc + 1)) s.pc))
    else if o.format.registers = 2 ∧ 7 < (s.mem.read (s.pc + 2)).toNat then
      stepWith m s = .next (s.halt (.decodeError .badRegister (s.mem.read (s.pc + 2)) s.pc))
    else ∃ i : Instr, i.operation = o ∧ stepWith m s = exec i s

/-! ## Errors -/

/-- 60_exceptions.md R204, R205 (precision is the spec's own choice D5, log 9; MOD's `pc` is D6, log 4): a step that
raises an error changes the run state alone, or also moves `pc` past a MOD as the launch parameter says, and the record
names the instruction's address. -/
def Obligations.ErrorsArePrecise : Prop :=
  ∀ (m : OpcodeMap) (s t : State) (r : HaltReason), s.run = .running → stepWith m s = .next t →
    t.run = .halted r → r ≠ .hlt →
    recordPc r = some s.pc ∧
      t = if s.arithFaultPcAdvance = true ∧ r = .arithmeticFault s.pc then { s with run := .halted r, pc := s.pc + 3 }
        else { s with run := .halted r }

/-- 60_exceptions.md R202's table, read from the record to the cause (D7, D8, D22: log 12; D21: log 8). Two clauses rest on
the check order of R207, the spec's own choice D4 (log 10, unsafe for a claim that names an error's kind or record where
two apply): a ReturnAddress record means that `sp` was not 0, since CALL's stack check comes first (R154), and an
OperandFetch record holds 256 and never the 257 of the table's row, since the first operand is fetched first (R103). -/
def Obligations.OutOfBoundsHasOnlyTheTablesCauses : Prop :=
  ∀ (m : OpcodeMap) (s t : State) (kind : AccessKind) (a : Int) (p : Nat), m.Legal → s.pc ≤ 256 →
    s.run = .running → stepWith m s = .next t → t.run = .halted (.outOfBoundsError kind a p) →
    match kind with
    | .fetch => s.pc = 256 ∧ a = 256
    | .operandFetch => ∃ o : Operation, s.mem.read s.pc = m o ∧ s.pc ≤ 255 ∧ 255 < s.pc + o.format.operands ∧ a = 256
    | .stackPush => ∃ r, fetchInstr m s = .ok (.push r) ∧ s.sp.toNat = 0 ∧ a = -1
    | .stackPop => ∃ r, fetchInstr m s = .ok (.pop r) ∧ a = 256 ∧
        (if r = spReg then s.mem.read s.sp.toNat else s.sp).toNat = 255
    | .callPush => ∃ r, fetchInstr m s = .ok (.call r) ∧ s.sp.toNat = 0 ∧ a = -1
    | .returnAddress => ∃ r, fetchInstr m s = .ok (.call r) ∧ s.sp.toNat ≠ 0 ∧ s.pc = 254 ∧ a = 256
    | .retPop => fetchInstr m s = .ok .ret ∧ s.sp.toNat = 255 ∧ a = 256

/-- 60_exceptions.md R201 (D3, log 11), read from the record to the cause: an opcode byte outside the table, or a register
operand byte above 7; the execute phase raises none. -/
def Obligations.DecodeErrorHasOnlyItsTwoCauses : Prop :=
  ∀ (m : OpcodeMap) (s t : State) (sub : DecodeSub) (byte : Byte) (p : Nat), m.Legal → s.run = .running →
    stepWith m s = .next t → t.run = .halted (.decodeError sub byte p) →
    s.pc ≤ 255 ∧ p = s.pc ∧
    match sub with
    | .unknownOpcode => byte = s.mem.read s.pc ∧ m.lookup byte = none
    | .badRegister => 7 < byte.toNat ∧ ∃ o : Operation, s.mem.read s.pc = m o ∧
        ∃ k, 1 ≤ k ∧ k ≤ o.format.registers ∧ byte = s.mem.read (s.pc + k)

/-- 40_fetch_decode_execute.md R110: a step ends the run normally exactly when it runs HLT, and in the controlled fault
exactly when it runs MOD with divisor 0 (60_exceptions.md R203). -/
def Obligations.RunsEndNormallyOnlyByHlt : Prop :=
  ∀ (m : OpcodeMap) (s t : State), s.run = .running → stepWith m s = .next t →
    (runEnd t.run = .normal ↔ fetchInstr m s = .ok .hlt) ∧
    (runEnd t.run = .controlledFault ↔ ∃ a b, fetchInstr m s = .ok (.mod a b) ∧ (s.reg b).toNat = 0)

/-! ## Encoding -/

/-- 30_encoding.md R70-R76: decoding the bytes of an instruction, with anything after them, gives it back with the rest,
under every legal opcode map. -/
def Obligations.DecodeOfEncodeIsTheInstruction : Prop :=
  ∀ (m : OpcodeMap) (i : Instr) (rest : List Byte), m.Legal → decode m (encode m i ++ rest) = .ok (i, rest)

/-- 30_encoding.md R70-R76, the other direction: bytes that decode are the bytes of that instruction, then the rest. -/
def Obligations.EncodeOfDecodeIsTheBytes : Prop :=
  ∀ (m : OpcodeMap) (bytes rest : List Byte) (i : Instr), m.Legal → decode m bytes = .ok (i, rest) →
    bytes = encode m i ++ rest

/-- 30_encoding.md R71-R74, R78: the decoder accepts, with nothing left over, exactly the well-formed bytes. -/
def Obligations.DecodeAcceptsExactlyTheWellFormed : Prop :=
  ∀ (m : OpcodeMap) (bytes : List Byte), m.Legal →
    (wellFormed m bytes = true ↔ ∃ i, decode m bytes = .ok (i, []))

/-- 30_encoding.md R71: the operand count is the opcode's bits 7:6, it is the length of an instruction less one, and no
recognized opcode has 0b11 there. -/
def Obligations.OperandCountIsTheTopTwoBits : Prop :=
  ∀ (m : OpcodeMap) (op : Byte), m.Legal →
    operandCount op = op.toNat / 64 ∧
    (op.toNat / 64 = 3 → m.lookup op = none) ∧
    (∀ i : Instr, m i.operation = op → (encode m i).length = 1 + op.toNat / 64 ∧ i.length = 1 + op.toNat / 64)

/-- 30_encoding.md R76, R78: under every legal map exactly 20 byte values are recognized as opcodes. -/
def Obligations.ExactlyTwentyOpcodesAreRecognized : Prop :=
  ∀ m : OpcodeMap, m.Legal →
    ((List.range 256).filter fun b => opcodeRecognized m (BitVec.ofNat 8 b)).length = 20

/-- 30_encoding.md R73, R74, R76, R78: a few words, numbered as the opcode table numbers them. The opcode bytes and LDI's
operand order are PRESUMED (D1, log 1). That register byte 8 is rejected and not masked is the spec's own choice D3
(log 11), and that byte 0x00 is no opcode rests on its closed table (D17, log 22). -/
def Obligations.SampleWordsDecode : Prop :=
  decodeTableWord 8 0b00000001 = some .hlt ∧
  decodeTableWord 16 0b00000011_01000101 = some (.push 3) ∧
  decodeTableWord 24 0b00000010_00000101_10100000 = some (.add 5 2) ∧
  decodeTableWord 24 0b11111111_00000111_10000010 = some (.ldi 7 255) ∧
  decodeTableWord 24 0b00000000_00001000_10100000 = none ∧
  decodeTableWord 8 0b00000000 = none

/-! ## ALU -/

/-- 41_alu.md R121: `x[a] <- (x[a] + x[b]) mod 256`, no flag, no memory, `pc + 3`. -/
def Obligations.AddAddsModulo256 : Prop :=
  ∀ (a b : Reg) (s : State), ∃ t, exec (.add a b) s = .next t ∧
    (t.reg a).toNat = ((s.reg a).toNat + (s.reg b).toNat) % 256 ∧ RegisterOnly a 3 s t

/-- R122: `x[a] <- (x[a] * x[b]) mod 256`, the low byte of the product. -/
def Obligations.MulKeepsTheLowByteOfTheProduct : Prop :=
  ∀ (a b : Reg) (s : State), ∃ t, exec (.mul a b) s = .next t ∧
    (t.reg a).toNat = ((s.reg a).toNat * (s.reg b).toNat) % 256 ∧ RegisterOnly a 3 s t

/-- R123, where the divisor is not 0: `x[a] <- x[a] mod x[b]`, always less than the divisor. -/
def Obligations.ModGivesTheRemainder : Prop :=
  ∀ (a b : Reg) (s : State), (s.reg b).toNat ≠ 0 → ∃ t, exec (.mod a b) s = .next t ∧
    (t.reg a).toNat = (s.reg a).toNat % (s.reg b).toNat ∧ (t.reg a).toNat < (s.reg b).toNat ∧ RegisterOnly a 3 s t

/-- R123, 60_exceptions.md R203, where the divisor is 0 (D6, log 4): Halted(ArithmeticFault) with the MOD's address,
`x[a]` not written, `pc` as the launch parameter says. -/
def Obligations.ModByZeroIsAnArithmeticFault : Prop :=
  ∀ (a b : Reg) (s : State), (s.reg b).toNat = 0 →
    exec (.mod a b) s = .next { s with
      run := .halted (.arithmeticFault s.pc)
      pc := if s.arithFaultPcAdvance then s.pc + 3 else s.pc }

/-- R124-R126, bit by bit. -/
def Obligations.AndOrXorWorkBitByBit : Prop :=
  ∀ (a b : Reg) (s : State),
    (∃ t, exec (.and a b) s = .next t ∧ RegisterOnly a 3 s t ∧
      ∀ k < 8, (t.reg a).getLsbD k = ((s.reg a).getLsbD k && (s.reg b).getLsbD k)) ∧
    (∃ t, exec (.or a b) s = .next t ∧ RegisterOnly a 3 s t ∧
      ∀ k < 8, (t.reg a).getLsbD k = ((s.reg a).getLsbD k || (s.reg b).getLsbD k)) ∧
    (∃ t, exec (.xor a b) s = .next t ∧ RegisterOnly a 3 s t ∧
      ∀ k < 8, (t.reg a).getLsbD k = Bool.xor ((s.reg a).getLsbD k) ((s.reg b).getLsbD k))

/-- R127: `x[a] <- 255 - x[a]`, every bit complemented, `pc + 2`. -/
def Obligations.NotComplementsOneRegister : Prop :=
  ∀ (a : Reg) (s : State), ∃ t, exec (.not a) s = .next t ∧ RegisterOnly a 2 s t ∧
    (t.reg a).toNat = 255 - (s.reg a).toNat ∧ ∀ k < 8, (t.reg a).getLsbD k = !(s.reg a).getLsbD k

/-- R128: `x[a] <- (x[a] << x[b]) & 0xFF`, the amount not masked, zeros shifted in: bit `k` is the old bit `k - x[b]`. -/
def Obligations.ShlShiftsLeftByTheWholeByte : Prop :=
  ∀ (a b : Reg) (s : State), ∃ t, exec (.shl a b) s = .next t ∧ RegisterOnly a 3 s t ∧
    (t.reg a).toNat = ((s.reg a).toNat * 2 ^ (s.reg b).toNat) % 256 ∧
    (∀ k < 8, (t.reg a).getLsbD k =
      if (s.reg b).toNat ≤ k then (s.reg a).getLsbD (k - (s.reg b).toNat) else false) ∧
    (8 ≤ (s.reg b).toNat → (t.reg a).toNat = 0)

/-- R129: `x[a] <- x[a] >> x[b]`, the amount not masked, logical: bit `k` is the old bit `k + x[b]`. -/
def Obligations.ShrShiftsRightByTheWholeByte : Prop :=
  ∀ (a b : Reg) (s : State), ∃ t, exec (.shr a b) s = .next t ∧ RegisterOnly a 3 s t ∧
    (t.reg a).toNat = (s.reg a).toNat / 2 ^ (s.reg b).toNat ∧
    (∀ k < 8, (t.reg a).getLsbD k = (s.reg a).getLsbD (k + (s.reg b).toNat)) ∧
    (8 ≤ (s.reg b).toNat → (t.reg a).toNat = 0)

/-! ## Stack, call and return -/

/-- 42_stack_control.md R152, where `sp` is not 0: `sp` decremented, then `x[a]`, read after that (D21 for R7, log 8),
stored at the new `sp`. -/
def Obligations.PushStoresBelowTheStackPointer : Prop :=
  ∀ (a : Reg) (s : State), s.sp.toNat ≠ 0 → ∃ t, exec (.push a) s = .next t ∧
    t.sp.toNat = s.sp.toNat - 1 ∧ t.mem.read (s.sp.toNat - 1) = t.reg a ∧
    SameRegsBut [spReg] s t ∧ SameMemBut [s.sp.toNat - 1] s t ∧ SameControl s t ∧ t.pc = s.pc + 2

/-- R150, R152: PUSH with `sp` 0 raises OutOfBoundsError(StackPush, -1). -/
def Obligations.PushAtZeroIsOutOfBounds : Prop :=
  ∀ (a : Reg) (s : State), s.sp.toNat = 0 →
    exec (.push a) s = .next { s with run := .halted (.outOfBoundsError .stackPush (-1) s.pc) }

/-- R153, where the incremented value is an address: the byte at `sp` into `x[a]`, then `x[7]`, read after that (D21
for R7, log 8), incremented. -/
def Obligations.PopLoadsFromTheStackPointer : Prop :=
  ∀ (a : Reg) (s : State), (if a = spReg then s.mem.read s.sp.toNat else s.sp).toNat ≠ 255 →
    ∃ t, exec (.pop a) s = .next t ∧
      (a ≠ spReg → t.reg a = s.mem.read s.sp.toNat) ∧
      t.sp.toNat = (if a = spReg then s.mem.read s.sp.toNat else s.sp).toNat + 1 ∧
      SameRegsBut [a, spReg] s t ∧ SameMemBut [] s t ∧ SameControl s t ∧ t.pc = s.pc + 2

/-- R150, R153: POP whose increment gives 256 raises OutOfBoundsError(StackPop, 256), with neither register written. -/
def Obligations.PopPastTheTopIsOutOfBounds : Prop :=
  ∀ (a : Reg) (s : State), (if a = spReg then s.mem.read s.sp.toNat else s.sp).toNat = 255 →
    exec (.pop a) s = .next { s with run := .halted (.outOfBoundsError .stackPop 256 s.pc) }

/-- R154, where `sp` is not 0 and the return address is an address: the return address `pc + 2` stored at the new `sp`,
then the jump to `x[a]`, read after the decrement (D21 for R7, log 8). -/
def Obligations.CallStoresTheReturnAddressAndJumps : Prop :=
  ∀ (a : Reg) (s : State), s.sp.toNat ≠ 0 → s.pc + 2 ≤ 255 → ∃ t, exec (.call a) s = .next t ∧
    t.sp.toNat = s.sp.toNat - 1 ∧ (t.mem.read (s.sp.toNat - 1)).toNat = s.pc + 2 ∧ t.pc = (t.reg a).toNat ∧
    SameRegsBut [spReg] s t ∧ SameMemBut [s.sp.toNat - 1] s t ∧ SameControl s t

/-- R150, R154 (D8, log 12): CALL's two errors, the stack check first. -/
def Obligations.CallChecksTheStackThenTheReturnAddress : Prop :=
  ∀ (a : Reg) (s : State),
    if s.sp.toNat = 0 then
      exec (.call a) s = .next { s with run := .halted (.outOfBoundsError .callPush (-1) s.pc) }
    else if 255 < s.pc + 2 then
      exec (.call a) s = .next { s with run := .halted (.outOfBoundsError .returnAddress (s.pc + 2) s.pc) }
    else ∃ t, exec (.call a) s = .next t ∧ t.run = s.run

/-- R155, where `sp` is not 255: `pc` from the byte at `sp`, then `sp` incremented. -/
def Obligations.RetJumpsToTheByteAtTheStackPointer : Prop :=
  ∀ s : State, s.sp.toNat ≠ 255 → ∃ t, exec .ret s = .next t ∧
    t.pc = (s.mem.read s.sp.toNat).toNat ∧ t.sp.toNat = s.sp.toNat + 1 ∧
    SameRegsBut [spReg] s t ∧ SameMemBut [] s t ∧ SameControl s t

/-- R150, R155: RET with `sp` 255 raises OutOfBoundsError(RetPop, 256). -/
def Obligations.RetAtTheTopIsOutOfBounds : Prop :=
  ∀ s : State, s.sp.toNat = 255 →
    exec .ret s = .next { s with run := .halted (.outOfBoundsError .retPop 256 s.pc) }

/-- 95_test_vectors.md W2 (D21 for R7, log 8): PUSH then POP of the same register restores the whole register file. -/
def Obligations.PushThenPopIsTheIdentity : Prop :=
  ∀ (n : Reg) (s : State), s.sp.toNat ≠ 0 → ∃ t u, exec (.push n) s = .next t ∧ exec (.pop n) t = .next u ∧
    u.regs = s.regs ∧ SameMemBut [s.sp.toNat - 1] s u ∧ SameControl s u ∧ u.pc = s.pc + 4

/-- 95_test_vectors.md W3: RET right after CALL returns to the byte after the CALL, with the stack pointer restored. -/
def Obligations.CallThenRetReturnsAfterTheCall : Prop :=
  ∀ (a : Reg) (s : State), s.sp.toNat ≠ 0 → s.pc + 2 ≤ 255 → ∃ t u, exec (.call a) s = .next t ∧
    exec .ret t = .next u ∧ u.pc = s.pc + 2 ∧ u.regs = s.regs ∧ SameControl s u

/-! ## Compare and branch -/

/-- 43_compare_branch.md R170 (the direction of L and G is D27, log 13): CMP replaces all three flags by the unsigned
comparison, exactly one of them set, and writes nothing else. -/
def Obligations.CmpReplacesTheFlags : Prop :=
  ∀ (a b : Reg) (s : State), ∃ t, exec (.cmp a b) s = .next t ∧
    (t.fl.e = true ↔ (s.reg a).toNat = (s.reg b).toNat) ∧
    (t.fl.l = true ↔ (s.reg a).toNat < (s.reg b).toNat) ∧
    (t.fl.g = true ↔ (s.reg b).toNat < (s.reg a).toNat) ∧
    t.fl.e.toNat + t.fl.l.toNat + t.fl.g.toNat = 1 ∧
    SameRegsBut [] s t ∧ SameMemBut [] s t ∧ t.run = s.run ∧ t.out = s.out ∧
    t.arithFaultPcAdvance = s.arithFaultPcAdvance ∧ t.pc = s.pc + 3

/-- R171-R173: JMP goes to `x[a]`; JEQ goes there exactly when E is set and JNE exactly when it is not, else `pc + 2`;
nothing else changes. -/
def Obligations.JumpsGoToTheRegisterOrFallThrough : Prop :=
  ∀ (a : Reg) (s : State) (i : Instr) (taken : Bool),
    (i = .jmp a ∧ taken = true) ∨ (i = .jeq a ∧ taken = s.fl.e) ∨ (i = .jne a ∧ taken = !s.fl.e) →
    ∃ t, exec i s = .next t ∧ t.pc = (if taken then (s.reg a).toNat else s.pc + 2) ∧
      SameRegsBut [] s t ∧ SameMemBut [] s t ∧ SameControl s t

/-! ## Load immediate, output, halt -/

/-- 44_load_output_halt.md R191: `x[a] <- imm`, R7 included, with no check. -/
def Obligations.LdiLoadsTheImmediate : Prop :=
  ∀ (a : Reg) (imm : Byte) (s : State), ∃ t, exec (.ldi a imm) s = .next t ∧ t.reg a = imm ∧ RegisterOnly a 3 s t

/-- R192: PRN appends the register's byte to the output sink, and that byte leaves through the port. -/
def Obligations.PrnEmitsTheRegister : Prop :=
  ∀ (a : Reg) (s : State), ∃ t, exec (.prn a) s = .next t ∧ t.out = s.out ++ [s.reg a] ∧ emitted s t = [s.reg a] ∧
    SameRegsBut [] s t ∧ SameMemBut [] s t ∧ t.fl = s.fl ∧ t.run = s.run ∧
    t.arithFaultPcAdvance = s.arithFaultPcAdvance ∧ t.pc = s.pc + 2

/-- R193, 40_fetch_decode_execute.md R106: HLT halts with the advance made, and the core then has no step. -/
def Obligations.HltHaltsAfterItsAdvance : Prop :=
  ∀ (m : OpcodeMap) (s : State), ∃ t, exec .hlt s = .next t ∧ t.run = .halted .hlt ∧ t.pc = s.pc + 1 ∧
    SameRegsBut [] s t ∧ SameMemBut [] s t ∧ t.fl = s.fl ∧ t.out = s.out ∧
    t.arithFaultPcAdvance = s.arithFaultPcAdvance ∧ stepWith m t = .fault .halted

/-! ## Whole-machine rules -/

/-- 10_state.md R29: only CMP writes the flags, all three, one of them set; only JEQ and JNE read them, and only E: any
other flags before an instruction lead to the same state but for the flags, which CMP makes the same too. -/
def Obligations.FlagsAreWrittenByCmpAndReadByBranches : Prop :=
  ∀ (i : Instr) (s t : State), exec i s = .next t →
    (t.fl = s.fl ∨ ∃ a b, i = .cmp a b ∧ t.fl.e.toNat + t.fl.l.toNat + t.fl.g.toNat = 1) ∧
    (∀ f : Flags, (f.e = s.fl.e ∨ ∀ a, i ≠ .jeq a ∧ i ≠ .jne a) →
      exec i (s.setFl f) = .next (if ∃ a b, i = .cmp a b then t else t.setFl f))

/-- 10_state.md R34: the output sink grows by what PRN emits and by nothing else, and no instruction reads it: another
sink before an instruction leads to the same state but for the sink. -/
def Obligations.OutputIsWrittenByPrnAndReadByNothing : Prop :=
  (∀ p, (State.resetWith p).out = []) ∧
  ∀ (i : Instr) (s t : State), exec i s = .next t →
    t.out = s.out ++ emits s i ∧
    ∀ o : List Byte, exec i { s with out := o } = .next { t with out := o ++ emits s i }

/-- 20_memory.md R52: an instruction writes no memory but the byte PUSH or CALL stores below the stack pointer. -/
def Obligations.MemoryIsWrittenOnlyByPushAndCall : Prop :=
  ∀ (i : Instr) (s t : State), exec i s = .next t → SameMemBut (storesTo s i) s t

/-- 10_state.md R21: an instruction writes no register but those the rule lists for it. -/
def Obligations.RegistersAreWrittenOnlyAsListed : Prop :=
  ∀ (i : Instr) (s t : State), exec i s = .next t → SameRegsBut (destinations i) s t

/-- 40_fetch_decode_execute.md R105, R106: an instruction that raises no error moves `pc` past its own bytes, unless it
assigns `pc`, and then to an address 0..255. -/
def Obligations.PcAdvancesByTheLengthUnlessAssigned : Prop :=
  ∀ (i : Instr) (s t : State), exec i s = .next t → t.run = s.run ∨ i = .hlt → s.run = .running →
    if assignsPc s i then t.pc ≤ 255 else t.pc = s.pc + i.length

/-- 10_state.md R25: a step leaves `pc` at 256 only by the default advance past the last byte. -/
def Obligations.Pc256ComesOnlyFromTheAdvance : Prop :=
  ∀ (m : OpcodeMap) (s t : State), m.Legal → s.pc ≤ 255 → stepWith m s = .next t → t.pc = 256 →
    ∃ o : Operation, s.mem.read s.pc = m o ∧ s.pc + 1 + o.format.operands = 256

/-- Derived (log 4, the model's choice): no step changes the launch parameter the model holds in State. -/
def Obligations.NoStepChangesTheLaunchParameter : Prop :=
  ∀ (m : OpcodeMap) (s t : State), stepWith m s = .next t → t.arithFaultPcAdvance = s.arithFaultPcAdvance

/-- Headline, derived: every step keeps the invariant, under every legal opcode map and so under the default: `pc` in
0..256, memory canonical inside 0..255, at most one flag, and a halt record that agrees with `pc`. The memory clause is
about the model's own list form (DESIGN CHOICE, log 3); the record clause rests on the spec's own choices D5 and D6
(logs 9 and 4). -/
def Obligations.EveryStepKeepsTheInvariant : Prop :=
  (∀ (m : OpcodeMap) (s t : State), m.Legal → s.Inv → stepWith m s = .next t → t.Inv) ∧
  ∀ s t : State, s.Inv → step s = .next t → t.Inv

/-- Derived: the invariant holds after any number of steps, for every launch, image and legal opcode map. It rests on the
model's list form of memory (DESIGN CHOICE, log 3) and on the spec's own choices D5, D6 and D10 (logs 9, 4 and 7). -/
def Obligations.EveryRunKeepsTheInvariant : Prop :=
  ∀ (m : OpcodeMap) (p : LaunchParams) (image : List Byte) (s : State) (n : Nat), m.Legal →
    launch p image = some s → (runUpTo m n s).Inv

/-! ## Memory -/

/-- 20_memory.md R51, 00_scope.md R10: an access outside 0..255 is OutOfBoundsError and reads and writes nothing; one
inside succeeds. -/
def Obligations.EveryAccessIsBoundsChecked : Prop :=
  ∀ (s : State) (kind : AccessKind) (a : Int) (v : Byte),
    if 0 ≤ a ∧ a ≤ 255 then
      s.memRead kind a = .ok (s.mem.read a.toNat) ∧ ∃ t, s.memWrite kind a v = .ok t
    else
      s.memRead kind a = .error (.outOfBoundsError kind a s.pc) ∧
      s.memWrite kind a v = .error (.outOfBoundsError kind a s.pc)

/-- 20_memory.md R53: a read returns the byte written last there, and a write changes no other cell and nothing else. -/
def Obligations.ReadReturnsTheLastWrite : Prop :=
  ∀ (s t : State) (kind kind' : AccessKind) (a b : Int) (v : Byte), s.memWrite kind a v = .ok t →
    t.memRead kind' b = (if b = a then .ok v else s.memRead kind' b) ∧ t = { s with mem := t.mem }

/-- Derived, 20_memory.md R62 with 42_stack_control.md R152 and R154: the byte PUSH or CALL stores is the byte every later
fetch of that address reads, until it is stored over. That PUSH R7 stores the decremented pointer is the spec's own
choice D21 (log 8). -/
def Obligations.FetchSeesWhatPushAndCallStore : Prop :=
  ∀ (a : Reg) (s t u : State) (k : Nat), s.sp.toNat ≠ 0 → t.run = .running → s.run = .running → u.mem = t.mem →
    u.pc + k = s.sp.toNat - 1 →
    (exec (.push a) s = .next t → u.readCode k = .ok (t.reg a)) ∧
    (exec (.call a) s = .next t → u.readCode k = .ok (BitVec.ofNat 8 (s.pc + 2)))

/-- Derived (log 3, the model's choice): two memories in canonical form that read the same everywhere are equal data. -/
def Obligations.CanonicalMemoriesThatReadAlikeAreEqual : Prop :=
  ∀ m n : Memory, m.wf → n.wf → (∀ a < 256, m.read a = n.read a) → m = n

/-! ## Report and host interface -/

/-- 60_exceptions.md R200, R210, 10_state.md R45 (the codes are D16, the flag positions D12: log 13): once Halted, and
only then, the report shows the reason with its code, `pc`, the registers, the flags byte, all of memory and the
output. -/
def Obligations.ReportShowsTheHaltedState : Prop :=
  ∀ s : State,
    (s.run = .running → s.report = none ∧ statusCode s.run = 0) ∧
    ∀ r, s.run = .halted r → ∃ rep, s.report = some rep ∧
      rep.reason = r ∧ rep.pc = s.pc ∧ rep.regs = s.regs ∧ rep.out = s.out ∧
      rep.flags.toNat = 4 * s.fl.l.toNat + 2 * s.fl.g.toNat + s.fl.e.toNat ∧
      (∀ a < 256, rep.mem[a]? = some (s.mem.read a)) ∧ rep.mem.length = 256 ∧
      rep.code = (match r with
        | .hlt => 1
        | .arithmeticFault _ => 2
        | .decodeError _ _ _ => 3
        | .outOfBoundsError _ _ _ => 4)

/-- 10_state.md R41-R43, 70_reset_and_hazards.md R231 (logs 15 and 23): the host can change the core only by reset, by
loading before the first step, or by letting it step; reset leaves nothing of the run before it; the load port refuses
an image longer than memory, and a second image (the model's choice, log 23). -/
def Obligations.HostCannotChangeARunningCore : Prop :=
  ∀ (b b' : Block) (act : HostAction), b.act act = .ok b' →
    match act with
    | .reset p => b'.core = State.resetWith p ∧ b'.phase = .awaitingImage ∧ b'.ceiling = none ∧ b'.taken = 0
    | .load image => b.phase = .awaitingImage ∧ b'.phase = .loaded ∧ image.length ≤ 256 ∧
        b'.core = b.core.setMem (b.core.mem.writeFrom 0 image)
    | .loadError => b.phase = .awaitingImage ∧ b'.phase = .loadFailed ∧ b'.core = b.core
    | .setCeiling n => b.phase = .loaded ∧ b'.ceiling = some n ∧ b'.core = b.core
    | .step => (b.phase = .loaded ∨ b.phase = .started) ∧ Sys2Proof.Machine.step b.core = .next b'.core ∧
        b'.phase = .started

/-- 10_state.md R43, 40_fetch_decode_execute.md R100, 70_reset_and_hazards.md R237 (log 15): with its image loaded, a core
under a ceiling takes a step exactly while it is Running and fewer steps than the ceiling were taken; it is stopped at
its ceiling exactly while still Running, and a Halted core has no step at its ceiling either. -/
def Obligations.CeilingStopsTheRunOnAStepBoundary : Prop :=
  ∀ (b : Block) (n : Nat), b.ceiling = some n → b.phase = .loaded ∨ b.phase = .started →
    ((∃ b', b.act .step = .ok b' ∧ b'.taken = b.taken + 1 ∧ b'.ceiling = some n) ↔
      b.taken < n ∧ b.core.run = .running) ∧
    (b.act .step = .error .ceilingReached ↔ n ≤ b.taken ∧ b.core.run = .running) ∧
    (b.act .step = .error .coreHalted ↔ b.core.run ≠ .running)

/-- 70_reset_and_hazards.md R231, 10_state.md R42 (log 23): a core without its image takes no step, and after the Loader's
LoadError every host action but reset is turned away: the core never starts. -/
def Obligations.CoreNeverStartsAfterALoadError : Prop :=
  ∀ b : Block, b.phase = .awaitingImage → b.act .step = .error .notLoaded ∧
    ∃ b', b.act .loadError = .ok b' ∧ b'.core = b.core ∧
      ∀ act : HostAction, (∀ p, act ≠ .reset p) → b'.act act = .error .loadFailed

/-- 70_reset_and_hazards.md R231, 40_fetch_decode_execute.md R110 (logs 15 and 23): a block after reset stands before its
run, and every accepted host action leaves it in one run of one launched state, of as many steps as were taken and no
more than the ceiling. -/
def Obligations.EveryHostActionKeepsTheBlockInOneRun : Prop :=
  (∀ p, (Block.reset p).Inv) ∧ ∀ (b b' : Block) (act : HostAction), b.Inv → b.act act = .ok b' → b'.Inv
end

