-- ==== Sys2Proof/Laws/State.lean ====
section
/-! SUPPORT. The small lemmas of State: one per field per update, so that no proof unfolds a record update; and the
register file read after a write. -/

namespace Sys2Proof.Machine

variable (s : State)

@[simp] theorem State.setReg_regs (r : Reg) (v : Byte) : (s.setReg r v).regs = s.regs.set r v := rfl
@[simp] theorem State.setReg_pc (r : Reg) (v : Byte) : (s.setReg r v).pc = s.pc := rfl
@[simp] theorem State.setReg_fl (r : Reg) (v : Byte) : (s.setReg r v).fl = s.fl := rfl
@[simp] theorem State.setReg_mem (r : Reg) (v : Byte) : (s.setReg r v).mem = s.mem := rfl
@[simp] theorem State.setReg_run (r : Reg) (v : Byte) : (s.setReg r v).run = s.run := rfl
@[simp] theorem State.setReg_out (r : Reg) (v : Byte) : (s.setReg r v).out = s.out := rfl
@[simp] theorem State.setReg_arithFaultPcAdvance (r : Reg) (v : Byte) : (s.setReg r v).arithFaultPcAdvance = s.arithFaultPcAdvance := rfl

@[simp] theorem State.setFl_regs (f : Flags) : (s.setFl f).regs = s.regs := rfl
@[simp] theorem State.setFl_pc (f : Flags) : (s.setFl f).pc = s.pc := rfl
@[simp] theorem State.setFl_fl (f : Flags) : (s.setFl f).fl = f := rfl
@[simp] theorem State.setFl_mem (f : Flags) : (s.setFl f).mem = s.mem := rfl
@[simp] theorem State.setFl_run (f : Flags) : (s.setFl f).run = s.run := rfl
@[simp] theorem State.setFl_out (f : Flags) : (s.setFl f).out = s.out := rfl
@[simp] theorem State.setFl_arithFaultPcAdvance (f : Flags) : (s.setFl f).arithFaultPcAdvance = s.arithFaultPcAdvance := rfl

@[simp] theorem State.setMem_regs (m : Memory) : (s.setMem m).regs = s.regs := rfl
@[simp] theorem State.setMem_pc (m : Memory) : (s.setMem m).pc = s.pc := rfl
@[simp] theorem State.setMem_fl (m : Memory) : (s.setMem m).fl = s.fl := rfl
@[simp] theorem State.setMem_mem (m : Memory) : (s.setMem m).mem = m := rfl
@[simp] theorem State.setMem_run (m : Memory) : (s.setMem m).run = s.run := rfl
@[simp] theorem State.setMem_out (m : Memory) : (s.setMem m).out = s.out := rfl
@[simp] theorem State.setMem_arithFaultPcAdvance (m : Memory) : (s.setMem m).arithFaultPcAdvance = s.arithFaultPcAdvance := rfl

@[simp] theorem State.advance_regs (n : Nat) : (s.advance n).regs = s.regs := rfl
@[simp] theorem State.advance_pc (n : Nat) : (s.advance n).pc = s.pc + 1 + n := rfl
@[simp] theorem State.advance_fl (n : Nat) : (s.advance n).fl = s.fl := rfl
@[simp] theorem State.advance_mem (n : Nat) : (s.advance n).mem = s.mem := rfl
@[simp] theorem State.advance_run (n : Nat) : (s.advance n).run = s.run := rfl
@[simp] theorem State.advance_out (n : Nat) : (s.advance n).out = s.out := rfl
@[simp] theorem State.advance_arithFaultPcAdvance (n : Nat) : (s.advance n).arithFaultPcAdvance = s.arithFaultPcAdvance := rfl

@[simp] theorem State.jump_regs (v : Byte) : (s.jump v).regs = s.regs := rfl
@[simp] theorem State.jump_pc (v : Byte) : (s.jump v).pc = v.toNat := rfl
@[simp] theorem State.jump_fl (v : Byte) : (s.jump v).fl = s.fl := rfl
@[simp] theorem State.jump_mem (v : Byte) : (s.jump v).mem = s.mem := rfl
@[simp] theorem State.jump_run (v : Byte) : (s.jump v).run = s.run := rfl
@[simp] theorem State.jump_out (v : Byte) : (s.jump v).out = s.out := rfl
@[simp] theorem State.jump_arithFaultPcAdvance (v : Byte) : (s.jump v).arithFaultPcAdvance = s.arithFaultPcAdvance := rfl

@[simp] theorem State.emit_regs (v : Byte) : (s.emit v).regs = s.regs := rfl
@[simp] theorem State.emit_pc (v : Byte) : (s.emit v).pc = s.pc := rfl
@[simp] theorem State.emit_fl (v : Byte) : (s.emit v).fl = s.fl := rfl
@[simp] theorem State.emit_mem (v : Byte) : (s.emit v).mem = s.mem := rfl
@[simp] theorem State.emit_run (v : Byte) : (s.emit v).run = s.run := rfl
@[simp] theorem State.emit_out (v : Byte) : (s.emit v).out = s.out ++ [v] := rfl
@[simp] theorem State.emit_arithFaultPcAdvance (v : Byte) : (s.emit v).arithFaultPcAdvance = s.arithFaultPcAdvance := rfl

@[simp] theorem State.halt_regs (r : HaltReason) : (s.halt r).regs = s.regs := rfl
@[simp] theorem State.halt_pc (r : HaltReason) : (s.halt r).pc = s.pc := rfl
@[simp] theorem State.halt_fl (r : HaltReason) : (s.halt r).fl = s.fl := rfl
@[simp] theorem State.halt_mem (r : HaltReason) : (s.halt r).mem = s.mem := rfl
@[simp] theorem State.halt_run (r : HaltReason) : (s.halt r).run = .halted r := rfl
@[simp] theorem State.halt_out (r : HaltReason) : (s.halt r).out = s.out := rfl
@[simp] theorem State.halt_arithFaultPcAdvance (r : HaltReason) : (s.halt r).arithFaultPcAdvance = s.arithFaultPcAdvance := rfl

@[simp] theorem State.reg_setFl (f : Flags) (r : Reg) : (s.setFl f).reg r = s.reg r := rfl
@[simp] theorem State.sp_setFl (f : Flags) : (s.setFl f).sp = s.sp := rfl
@[simp] theorem State.reg_setMem (m : Memory) (r : Reg) : (s.setMem m).reg r = s.reg r := rfl
@[simp] theorem State.sp_setMem (m : Memory) : (s.setMem m).sp = s.sp := rfl
@[simp] theorem State.reg_advance (n : Nat) (r : Reg) : (s.advance n).reg r = s.reg r := rfl
@[simp] theorem State.sp_advance (n : Nat) : (s.advance n).sp = s.sp := rfl
@[simp] theorem State.reg_jump (v : Byte) (r : Reg) : (s.jump v).reg r = s.reg r := rfl
@[simp] theorem State.sp_jump (v : Byte) : (s.jump v).sp = s.sp := rfl
@[simp] theorem State.reg_emit (v : Byte) (r : Reg) : (s.emit v).reg r = s.reg r := rfl
@[simp] theorem State.sp_emit (v : Byte) : (s.emit v).sp = s.sp := rfl
@[simp] theorem State.reg_halt (h : HaltReason) (r : Reg) : (s.halt h).reg r = s.reg r := rfl
@[simp] theorem State.sp_halt (h : HaltReason) : (s.halt h).sp = s.sp := rfl

@[simp] theorem State.reg_setReg_same (r : Reg) (v : Byte) : (s.setReg r v).reg r = v := by
  simp [State.reg, State.setReg]

theorem State.reg_setReg_ne {r q : Reg} (v : Byte) (h : q ≠ r) : (s.setReg r v).reg q = s.reg q := by
  have hv : r.val ≠ q.val := fun hv => h (Fin.ext hv.symm)
  simp [State.reg, State.setReg, Vector.getElem_set_ne _ _ hv]

theorem State.reg_setReg (r q : Reg) (v : Byte) :
    (s.setReg r v).reg q = if q = r then v else s.reg q := by
  by_cases h : q = r
  · subst h; simp
  · simp [h, s.reg_setReg_ne v h]

@[simp] theorem State.setSp_eq (v : Byte) : s.setSp v = s.setReg spReg v := rfl

theorem State.sp_eq : s.sp = s.reg spReg := rfl

theorem State.sp_setReg (r : Reg) (v : Byte) : (s.setReg r v).sp = if r = spReg then v else s.sp := by
  rw [State.sp_eq, State.reg_setReg, State.sp_eq]
  by_cases h : spReg = r
  · simp [h]
  · simp [h, Ne.symm h]

@[simp] theorem State.sp_setReg_spReg (v : Byte) : (s.setReg spReg v).sp = v := by simp [State.sp_eq]

/-- Two states with the same value in every register have the same register file. -/
theorem State.regs_ext {s t : State} (h : ∀ r : Reg, t.reg r = s.reg r) : t.regs = s.regs :=
  Vector.ext fun i hi => h ⟨i, hi⟩

@[simp] theorem narrow_toNat (n : Nat) : (narrow n).toNat = n % 256 := by simp [narrow]

@[simp] theorem narrow_byte (v : Byte) : narrow v.toNat = v := by simp [narrow]

end Sys2Proof.Machine
end

