-- ==== Sys2Proof/Laws/Memory.lean ====
section
/-! SUPPORT. Memory: read after write, and that every operation keeps the canonical form (20_memory.md R50, R53). -/

namespace Sys2Proof.Machine

theorem Memory.read_erase (m : Memory) (a b : Nat) :
    (m.erase a).read b = if b = a then unlisted else m.read b := by
  induction m with
  | nil => simp [Memory.erase, Memory.read]
  | cons c rest ih =>
    obtain ⟨x, v⟩ := c
    simp only [Memory.erase] at ih ⊢
    by_cases hx : x = a
    · subst hx
      by_cases hb : b = x
      · simpa [hb] using ih
      · simp [Memory.read, hb, Ne.symm hb] at ih ⊢
        exact ih
    · simp only [List.filter_cons, bne_iff_ne, ne_eq, hx, not_false_eq_true, if_true, Memory.read]
      by_cases hb : x = b
      · subst hb; simp [hx]
      · simp only [hb, if_false]; exact ih

theorem Memory.read_insert (m : Memory) (a b : Nat) (v : Byte)
    (hno : ∀ c ∈ m, c.1 ≠ a) :
    (Memory.insert a v m).read b = if b = a then v else m.read b := by
  induction m with
  | nil => simp [Memory.insert, Memory.read, eq_comm]
  | cons c rest ih =>
    obtain ⟨x, w⟩ := c
    have hx : x ≠ a := hno (x, w) (by simp)
    have ih' := ih fun d hd => hno d (by simp [hd])
    simp only [Memory.insert]
    split
    · by_cases hb : b = a
      · simp [Memory.read, hb]
      · simp [Memory.read, hb, Ne.symm hb]
    · by_cases hb : x = b
      · subst hb; simp [Memory.read, hx]
      · simp only [Memory.read, hb, if_false]; exact ih'

theorem Memory.mem_erase {m : Memory} {a : Nat} {c : Host.Cell} : c ∈ m.erase a ↔ c ∈ m ∧ c.1 ≠ a := by
  simp [Memory.erase]

/-- Read after write: the written byte there, every other byte as before. -/
theorem Memory.read_write (m : Memory) (a b : Nat) (v : Byte) :
    (m.write a v).read b = if b = a then v else m.read b := by
  unfold Memory.write
  split
  · next h => rw [Memory.read_erase, h]
  · rw [Memory.read_insert _ _ _ _ fun c hc => (Memory.mem_erase.mp hc).2, Memory.read_erase]
    split <;> rfl

@[simp] theorem Memory.read_write_same (m : Memory) (a : Nat) (v : Byte) : (m.write a v).read a = v := by
  simp [Memory.read_write]

theorem Memory.read_write_ne (m : Memory) {a b : Nat} (v : Byte) (h : b ≠ a) :
    (m.write a v).read b = m.read b := by
  simp [Memory.read_write, h]

theorem Memory.mem_insert {m : Memory} {a : Nat} {v : Byte} {c : Host.Cell} :
    c ∈ Memory.insert a v m ↔ c = (a, v) ∨ c ∈ m := by
  induction m with
  | nil => simp [Memory.insert]
  | cons d rest ih =>
    simp only [Memory.insert]
    split
    · simp
    · simp only [List.mem_cons, ih]; tauto

theorem Memory.wf_erase {m : Memory} (h : m.wf) (a : Nat) : (m.erase a).wf :=
  ⟨fun c hc => h.1 c (Memory.mem_erase.mp hc).1, h.2.filter _⟩

theorem Memory.pairwise_insert {m : Memory} {a : Nat} {v : Byte} (h : m.Pairwise fun c d => c.1 < d.1)
    (hno : ∀ c ∈ m, c.1 ≠ a) : (Memory.insert a v m).Pairwise fun c d => c.1 < d.1 := by
  induction m with
  | nil => simp [Memory.insert]
  | cons c rest ih =>
    obtain ⟨hc, hr⟩ := List.pairwise_cons.mp h
    simp only [Memory.insert]
    split
    · next hlt =>
      refine List.pairwise_cons.mpr ⟨fun d hd => ?_, h⟩
      rcases List.mem_cons.mp hd with rfl | hd
      · exact hlt
      · exact lt_trans hlt (hc d hd)
    · next hge =>
      refine List.pairwise_cons.mpr ⟨fun d hd => ?_, ih hr fun d hd => hno d (by simp [hd])⟩
      rcases Memory.mem_insert.mp hd with rfl | hd
      · have := hno c (by simp); simp only; omega
      · exact hc d hd

theorem Memory.wf_nil : Memory.wf [] := ⟨fun _ hc => absurd hc (List.not_mem_nil), List.Pairwise.nil⟩

/-- A write inside memory keeps the canonical form. -/
theorem Memory.wf_write {m : Memory} (h : m.wf) {a : Nat} (ha : a < memSize) (v : Byte) : (m.write a v).wf := by
  unfold Memory.write
  split
  · exact Memory.wf_erase h a
  · next hv =>
    have he := Memory.wf_erase h a
    refine ⟨fun c hc => ?_, Memory.pairwise_insert he.2 fun c hc => (Memory.mem_erase.mp hc).2⟩
    rcases Memory.mem_insert.mp hc with rfl | hc
    · exact ⟨ha, hv⟩
    · exact he.1 c hc

theorem Memory.wf_writeFrom {m : Memory} (h : m.wf) (a : Nat) (bs : List Byte) : (m.writeFrom a bs).wf := by
  induction bs generalizing m a with
  | nil => exact h
  | cons b rest ih =>
    simp only [Memory.writeFrom]
    apply ih
    split
    · next ha => exact Memory.wf_write h ha b
    · exact h

/-- What every address reads as after bytes are written from `a` on. -/
theorem Memory.read_writeFrom (m : Memory) (a : Nat) (bs : List Byte) (b : Nat) :
    (m.writeFrom a bs).read b =
      if h : a ≤ b ∧ b - a < bs.length ∧ b < memSize then bs[b - a]'h.2.1 else m.read b := by
  induction bs generalizing m a with
  | nil => simp [Memory.writeFrom]
  | cons v rest ih =>
    simp only [Memory.writeFrom, ih]
    by_cases hlo : a + 1 ≤ b
    · have hsub : b - a = b - (a + 1) + 1 := by omega
      have hne : b ≠ a := by omega
      by_cases hin : b - (a + 1) < rest.length ∧ b < memSize
      · have h1 : a + 1 ≤ b ∧ b - (a + 1) < rest.length ∧ b < memSize := ⟨hlo, hin⟩
        have h2 : a ≤ b ∧ b - a < (v :: rest).length ∧ b < memSize := by
          refine ⟨by omega, ?_, hin.2⟩; simp only [List.length_cons]; omega
        rw [dif_pos h1, dif_pos h2]
        simp [hsub]
      · have h1 : ¬ (a + 1 ≤ b ∧ b - (a + 1) < rest.length ∧ b < memSize) := fun h => hin h.2
        have h2 : ¬ (a ≤ b ∧ b - a < (v :: rest).length ∧ b < memSize) := by
          rintro ⟨_, h3, h4⟩; simp only [List.length_cons] at h3; exact hin ⟨by omega, h4⟩
        rw [dif_neg h1, dif_neg h2]
        split
        · exact Memory.read_write_ne m v hne
        · rfl
    · have h1 : ¬ (a + 1 ≤ b ∧ b - (a + 1) < rest.length ∧ b < memSize) := fun h => hlo h.1
      rw [dif_neg h1]
      by_cases hb : b = a
      · subst hb
        by_cases hs : b < memSize
        · simp [hs]
        · simp [hs]
      · have h2 : ¬ (a ≤ b ∧ b - a < (v :: rest).length ∧ b < memSize) := by omega
        rw [dif_neg h2]
        split
        · exact Memory.read_write_ne m v hb
        · rfl

/-- A byte that is not listed reads as `unlisted`. -/
theorem Memory.read_of_not_mem {m : Memory} {a : Nat} (h : ∀ c ∈ m, c.1 ≠ a) : m.read a = unlisted := by
  induction m with
  | nil => rfl
  | cons c rest ih =>
    simp [Memory.read, h c (by simp), ih fun d hd => h d (by simp [hd])]

end Sys2Proof.Machine
end

