-- ==== Sys2Proof/Laws/Ops.lean ====
section
/-! SUPPORT. One lemma per shared operation of Ops.lean: everything it can answer. -/

namespace Sys2Proof.Machine

variable (s : State)

@[simp] theorem settle_ok (t : State) : settle s (.ok t) = .next t := rfl

@[simp] theorem settle_error (r : HaltReason) : settle s (.error r) = .next (s.halt r) := rfl

theorem raise_eq (r : HaltReason) : raise r s = .next (s.halt r) := rfl

/-- The address check inside the address space (20_memory.md R51). -/
theorem State.checkAddress_nat (kind : AccessKind) {a : Nat} (h : a ≤ 255) :
    s.checkAddress kind (a : Int) = .ok a := by
  have : ¬ ((a : Int) < 0 ∨ (255 : Int) < a) := by omega
  rw [State.checkAddress, if_neg this]; rfl

/-- The address check outside the address space. -/
theorem State.checkAddress_out (kind : AccessKind) {a : Int} (h : a < 0 ∨ 255 < a) :
    s.checkAddress kind a = .error (.outOfBoundsError kind a s.pc) := by
  rw [State.checkAddress, if_pos h]

theorem State.checkAddress_above (kind : AccessKind) {a : Nat} (h : 255 < a) :
    s.checkAddress kind (a : Int) = .error (.outOfBoundsError kind a s.pc) :=
  s.checkAddress_out kind (.inr (by omega))

theorem State.memRead_nat (kind : AccessKind) {a : Nat} (h : a ≤ 255) :
    s.memRead kind (a : Int) = .ok (s.mem.read a) := by
  rw [State.memRead, s.checkAddress_nat kind h]; rfl

theorem State.memRead_above (kind : AccessKind) {a : Nat} (h : 255 < a) :
    s.memRead kind (a : Int) = .error (.outOfBoundsError kind a s.pc) := by
  rw [State.memRead, s.checkAddress_above kind h]; rfl

theorem byte_le (v : Byte) : v.toNat ≤ 255 := Nat.le_of_lt_succ v.isLt

@[simp] theorem State.memRead_byte (kind : AccessKind) (v : Byte) :
    s.memRead kind (v.toNat : Int) = .ok (s.mem.read v.toNat) := s.memRead_nat kind (byte_le v)

@[simp] theorem State.memWrite_byte (kind : AccessKind) (v w : Byte) :
    s.memWrite kind (v.toNat : Int) w = .ok (s.setMem (s.mem.write v.toNat w)) := by
  rw [State.memWrite, s.checkAddress_nat kind (byte_le v)]; rfl

theorem byte_eq_iff (v w : Byte) : v = w ↔ v.toNat = w.toNat := BitVec.toNat_eq

/-- The checked decrement of the stack pointer (42_stack_control.md R150). -/
theorem State.decSp_eq (kind : AccessKind) :
    s.decSp kind = if s.sp.toNat = 0 then .error (.outOfBoundsError kind (-1) s.pc)
      else .ok (s.setReg spReg (narrow (s.sp.toNat - 1))) := by
  unfold State.decSp
  dsimp only
  by_cases h : s.sp.toNat = 0
  · have h1 : (s.sp.toNat : Int) - 1 < 0 := by omega
    have h2 : (s.sp.toNat : Int) - 1 = -1 := by omega
    rw [if_pos h, if_pos h1, h2]
  · have hlt := byte_le s.sp
    have h1 : ¬ ((s.sp.toNat : Int) - 1 < 0) := by omega
    have h2 : BitVec.ofInt 8 ((s.sp.toNat : Int) - 1) = narrow (s.sp.toNat - 1) := by
      apply BitVec.eq_of_toNat_eq
      rw [BitVec.toNat_ofInt, narrow_toNat]
      omega
    rw [if_neg h, if_neg h1, h2, State.setSp_eq]

/-- The checked increment of the stack pointer (R150). -/
theorem State.incSp_eq (kind : AccessKind) :
    s.incSp kind = if s.sp.toNat = 255 then .error (.outOfBoundsError kind 256 s.pc)
      else .ok (s.setReg spReg (narrow (s.sp.toNat + 1))) := by
  unfold State.incSp
  dsimp only
  by_cases h : s.sp.toNat = 255
  · have h1 : (255 : Int) < (s.sp.toNat : Int) + 1 := by omega
    have h2 : (s.sp.toNat : Int) + 1 = 256 := by omega
    rw [if_pos h, if_pos h1, h2]
  · have hlt := byte_le s.sp
    have h1 : ¬ ((255 : Int) < (s.sp.toNat : Int) + 1) := by omega
    have h2 : BitVec.ofInt 8 ((s.sp.toNat : Int) + 1) = narrow (s.sp.toNat + 1) := by
      apply BitVec.eq_of_toNat_eq
      rw [BitVec.toNat_ofInt, narrow_toNat]
      omega
    rw [if_neg h, if_neg h1, h2, State.setSp_eq]

theorem State.returnAddress_eq :
    s.returnAddress = if s.pc + 2 ≤ 255 then .ok (narrow (s.pc + 2))
      else .error (.outOfBoundsError .returnAddress (s.pc + 2) s.pc) := by
  unfold State.returnAddress
  by_cases h : s.pc + 2 ≤ 255
  · have := s.checkAddress_nat .returnAddress h
    push_cast at this
    rw [this]; simp [h, narrow]
  · have := s.checkAddress_above .returnAddress (a := s.pc + 2) (by omega)
    push_cast at this
    rw [this]; simp [h]

theorem State.readCode_in {k : Nat} (h : s.pc + k ≤ 255) : s.readCode k = .ok (s.mem.read (s.pc + k)) := by
  have := s.memRead_nat (if k = 0 then .fetch else .operandFetch) h
  push_cast at this
  exact this

theorem State.readCode_above {k : Nat} (h : 255 < s.pc + k) :
    s.readCode k = .error (.outOfBoundsError (if k = 0 then .fetch else .operandFetch) (s.pc + k) s.pc) := by
  have := s.memRead_above (if k = 0 then .fetch else .operandFetch) h
  push_cast at this
  exact this

end Sys2Proof.Machine
end

