-- ==== Sys2Proof/Laws/Exec.lean ====
section
/-! SUPPORT. What each instruction that can raise an error answers, in one equation (41_alu.md R123, 42_stack_control.md
R152-R155); the others answer one next state by definition. -/

namespace Sys2Proof.Machine

variable (s : State)

/-- The state MOD by zero leaves (60_exceptions.md R203). -/
theorem execMod_eq (a b : Reg) :
    execMod a b s = if s.reg b = 0 then
        .next ((if s.arithFaultPcAdvance then s.advance 2 else s).halt (.arithmeticFault s.pc))
      else .next (aluBinary aluMod a b s) := rfl

/-- The state PUSH leaves when it does not fault: `sp` one less, and `x[a]`, read after that, at the new top. -/
def pushed (a : Reg) (s : State) : State :=
  ((s.setReg spReg (narrow (s.sp.toNat - 1))).setMem
    (s.mem.write (narrow (s.sp.toNat - 1)).toNat ((s.setReg spReg (narrow (s.sp.toNat - 1))).reg a))).advance 1

theorem execPush_eq (a : Reg) :
    execPush a s = if s.sp.toNat = 0 then .next (s.halt (.outOfBoundsError .stackPush (-1) s.pc))
      else .next (pushed a s) := by
  unfold execPush
  rw [State.decSp_eq]
  by_cases h : s.sp.toNat = 0
  · rw [if_pos h, if_pos h]; rfl
  · rw [if_neg h, if_neg h]
    simp only [bind, Except.bind, State.memWrite_byte, State.sp_setReg_spReg]
    rfl

/-- The state POP leaves before its increment: the popped byte in `x[a]`. -/
def popLoaded (a : Reg) (s : State) : State := s.setReg a (s.mem.read s.sp.toNat)

theorem execPop_eq (a : Reg) :
    execPop a s = if (popLoaded a s).sp.toNat = 255 then .next (s.halt (.outOfBoundsError .stackPop 256 s.pc))
      else .next (((popLoaded a s).setReg spReg (narrow ((popLoaded a s).sp.toNat + 1))).advance 1) := by
  unfold execPop
  rw [State.memRead_byte]
  simp only [bind, Except.bind]
  rw [State.incSp_eq, ← popLoaded]
  by_cases h : (popLoaded a s).sp.toNat = 255
  · rw [if_pos h, if_pos h]; rfl
  · rw [if_neg h, if_neg h]; rfl

/-- The state CALL leaves when it does not fault. -/
def called (a : Reg) (s : State) : State :=
  ((s.setReg spReg (narrow (s.sp.toNat - 1))).setMem
    (s.mem.write (narrow (s.sp.toNat - 1)).toNat (narrow (s.pc + 2)))).jump
      ((s.setReg spReg (narrow (s.sp.toNat - 1))).reg a)

theorem execCall_eq (a : Reg) :
    execCall a s = if s.sp.toNat = 0 then .next (s.halt (.outOfBoundsError .callPush (-1) s.pc))
      else if s.pc + 2 ≤ 255 then .next (called a s)
      else .next (s.halt (.outOfBoundsError .returnAddress (s.pc + 2) s.pc)) := by
  unfold execCall
  rw [State.decSp_eq]
  by_cases h : s.sp.toNat = 0
  · rw [if_pos h, if_pos h]; rfl
  · rw [if_neg h, if_neg h, State.returnAddress_eq]
    by_cases h2 : s.pc + 2 ≤ 255
    · rw [if_pos h2, if_pos h2]
      simp only [bind, Except.bind, State.memWrite_byte, State.sp_setReg_spReg]
      rfl
    · rw [if_neg h2, if_neg h2]; rfl

/-- The state RET leaves when it does not fault. -/
def returned (s : State) : State := (s.setReg spReg (narrow (s.sp.toNat + 1))).jump (s.mem.read s.sp.toNat)

theorem execRet_eq :
    execRet s = if s.sp.toNat = 255 then .next (s.halt (.outOfBoundsError .retPop 256 s.pc))
      else .next (returned s) := by
  unfold execRet
  rw [State.memRead_byte]
  simp only [bind, Except.bind]
  rw [State.incSp_eq]
  by_cases h : s.sp.toNat = 255
  · rw [if_pos h, if_pos h]; rfl
  · rw [if_neg h, if_neg h]; rfl

/-- The error an instruction raises in a state, the first of its checks that fails (60_exceptions.md R202, R203, R207). -/
def execError (s : State) : Instr → Option HaltReason
  | .mod _ b => if s.reg b = 0 then some (.arithmeticFault s.pc) else none
  | .push _ => if s.sp.toNat = 0 then some (.outOfBoundsError .stackPush (-1) s.pc) else none
  | .pop a => if (popLoaded a s).sp.toNat = 255 then some (.outOfBoundsError .stackPop 256 s.pc) else none
  | .call _ =>
    if s.sp.toNat = 0 then some (.outOfBoundsError .callPush (-1) s.pc)
    else if s.pc + 2 ≤ 255 then none else some (.outOfBoundsError .returnAddress (s.pc + 2) s.pc)
  | .ret => if s.sp.toNat = 255 then some (.outOfBoundsError .retPop 256 s.pc) else none
  | _ => none

/-- The state an error leaves (R204, R205): `s` Halted, or also past the MOD that divided by zero. -/
def errorState (s : State) (r : HaltReason) : State :=
  (if s.arithFaultPcAdvance = true ∧ r = .arithmeticFault s.pc then s.advance 2 else s).halt r

/-- The state an instruction leaves when it raises no error. -/
def effect (s : State) : Instr → State
  | .hlt => (s.halt .hlt).advance 0
  | .ret => returned s
  | .push a => pushed a s
  | .pop a => ((popLoaded a s).setReg spReg (narrow ((popLoaded a s).sp.toNat + 1))).advance 1
  | .prn a => (s.emit (s.reg a)).advance 1
  | .call a => called a s
  | .jmp a => s.jump (s.reg a)
  | .jeq a => jumpIf s.fl.e a s
  | .jne a => jumpIf (!s.fl.e) a s
  | .not a => (s.setReg a (aluNot (s.reg a))).advance 1
  | .ldi a imm => (s.setReg a imm).advance 2
  | .add a b => aluBinary aluAdd a b s
  | .mul a b => aluBinary aluMul a b s
  | .mod a b => aluBinary aluMod a b s
  | .cmp a b => (s.setFl (compareFlags (s.reg a) (s.reg b))).advance 2
  | .and a b => aluBinary aluAnd a b s
  | .or a b => aluBinary aluOr a b s
  | .xor a b => aluBinary aluXor a b s
  | .shl a b => aluBinary aluShl a b s
  | .shr a b => aluBinary aluShr a b s

/-- Everything an instruction can do: its effect, or the first error it raises. -/
theorem exec_eq (i : Instr) :
    exec i s = .next ((execError s i).elim (effect s i) (errorState s)) := by
  cases i with
  | mod a b =>
    simp only [exec, execMod_eq, execError]
    by_cases h : s.reg b = 0
    · rw [if_pos h, if_pos h]; simp [errorState]
    · rw [if_neg h, if_neg h]; rfl
  | push a =>
    simp only [exec, execPush_eq, execError]
    by_cases h : s.sp.toNat = 0
    · rw [if_pos h, if_pos h]; simp [errorState]
    · rw [if_neg h, if_neg h]; rfl
  | pop a =>
    simp only [exec, execPop_eq, execError]
    by_cases h : (popLoaded a s).sp.toNat = 255
    · rw [if_pos h, if_pos h]; simp [errorState]
    · rw [if_neg h, if_neg h]; rfl
  | call a =>
    simp only [exec, execCall_eq, execError]
    by_cases h : s.sp.toNat = 0
    · rw [if_pos h, if_pos h]; simp [errorState]
    · rw [if_neg h, if_neg h]
      by_cases h2 : s.pc + 2 ≤ 255
      · rw [if_pos h2, if_pos h2]; rfl
      · rw [if_neg h2, if_neg h2]; simp [errorState]
  | ret =>
    simp only [exec, execRet_eq, execError]
    by_cases h : s.sp.toNat = 255
    · rw [if_pos h, if_pos h]; simp [errorState]
    · rw [if_neg h, if_neg h]; rfl
  | _ => rfl

/-- What a next state of an instruction is: its effect where it raises no error, else the error's state. -/
theorem exec_cases {i : Instr} {s t : State} (h : exec i s = .next t) :
    (execError s i = none ∧ t = effect s i) ∨ ∃ r, execError s i = some r ∧ t = errorState s r := by
  rw [exec_eq] at h
  injection h with h
  cases he : execError s i with
  | none => rw [he] at h; exact .inl ⟨rfl, h.symm⟩
  | some r => rw [he] at h; exact .inr ⟨r, rfl, h.symm⟩

/-- Which instructions raise which error, and when (R202, R203). -/
theorem execError_cases {i : Instr} {r : HaltReason} (h : execError s i = some r) :
    (∃ a b, i = .mod a b ∧ s.reg b = 0 ∧ r = .arithmeticFault s.pc) ∨
    (∃ a, i = .push a ∧ s.sp.toNat = 0 ∧ r = .outOfBoundsError .stackPush (-1) s.pc) ∨
    (∃ a, i = .pop a ∧ (popLoaded a s).sp.toNat = 255 ∧ r = .outOfBoundsError .stackPop 256 s.pc) ∨
    (∃ a, i = .call a ∧ s.sp.toNat = 0 ∧ r = .outOfBoundsError .callPush (-1) s.pc) ∨
    (∃ a, i = .call a ∧ s.sp.toNat ≠ 0 ∧ 255 < s.pc + 2 ∧
      r = .outOfBoundsError .returnAddress (s.pc + 2) s.pc) ∨
    (i = .ret ∧ s.sp.toNat = 255 ∧ r = .outOfBoundsError .retPop 256 s.pc) := by
  cases i <;> simp only [execError] at h <;> try cases h
  case mod a b =>
    split at h
    · next hb => injection h with h; exact .inl ⟨a, b, rfl, hb, h.symm⟩
    · cases h
  case push a =>
    split at h
    · next h0 => injection h with h; exact .inr (.inl ⟨a, rfl, h0, h.symm⟩)
    · cases h
  case pop a =>
    split at h
    · next h0 => injection h with h; exact .inr (.inr (.inl ⟨a, rfl, h0, h.symm⟩))
    · cases h
  case call a =>
    split at h
    · next h0 => injection h with h; exact .inr (.inr (.inr (.inl ⟨a, rfl, h0, h.symm⟩)))
    · next h0 =>
      split at h
      · cases h
      · next h1 => injection h with h; exact .inr (.inr (.inr (.inr (.inl ⟨a, rfl, h0, by omega, h.symm⟩))))
  case ret =>
    split at h
    · next h0 => injection h with h; exact .inr (.inr (.inr (.inr (.inr ⟨rfl, h0, h.symm⟩))))
    · cases h

/-- Only HLT's effect changes the run state. -/
theorem effect_run (i : Instr) : (effect s i).run = if i = .hlt then .halted .hlt else s.run := by
  cases i <;> simp [effect, returned, pushed, popLoaded, called, jumpIf, aluBinary]
  all_goals split <;> rfl

end Sys2Proof.Machine
end

