-- ==== Sys2Proof/Laws/Decode.lean ====
section
/-! SUPPORT. The lemmas of the opcode map, the operand check and the decoder. -/

namespace Sys2Proof

theorem Operation.mem_all (o : Operation) : o ∈ Operation.all := by cases o <;> decide

/-- A lookup that answers names a key of the table (30_encoding.md R72). -/
theorem OpcodeMap.eq_of_lookup {m : OpcodeMap} {op : Byte} {o : Operation} (h : m.lookup op = some o) : m o = op := by
  have := List.find?_some h
  simpa using this

/-- Under distinct bytes every operation is found under its own byte (R77). -/
theorem OpcodeMap.lookup_self {m : OpcodeMap} (h : m.Legal) (o : Operation) : m.lookup (m o) = some o := by
  cases hl : m.lookup (m o) with
  | none =>
    have := List.find?_eq_none.mp hl o o.mem_all
    simp at this
  | some o' => rw [h.distinct o' o (OpcodeMap.eq_of_lookup hl)]

theorem OpcodeMap.lookup_eq_some_iff {m : OpcodeMap} (h : m.Legal) {op : Byte} {o : Operation} :
    m.lookup op = some o ↔ op = m o :=
  ⟨fun hl => (OpcodeMap.eq_of_lookup hl).symm, fun he => he ▸ OpcodeMap.lookup_self h o⟩

/-- The legality check and the constraints of R77 say the same. -/
theorem OpcodeMap.legalCheck_iff (m : OpcodeMap) : m.legalCheck = true ↔ m.Legal := by
  simp only [OpcodeMap.legalCheck, OpcodeMap.distinctCheck, OpcodeMap.countsCheck, OpcodeMap.noThreeCheck,
    Bool.and_eq_true, List.all_eq_true, Bool.or_eq_true, bne_iff_ne, beq_iff_eq]
  constructor
  · rintro ⟨⟨h1, h2⟩, h3⟩
    exact ⟨fun o o' he => (h1 o o.mem_all o' o'.mem_all).resolve_left fun hne => hne he,
      fun o => h2 o o.mem_all, fun o => h3 o o.mem_all⟩
  · rintro ⟨h1, h2, h3⟩
    exact ⟨⟨fun o _ o' _ => (Classical.em (m o = m o')).symm.imp id (h1 o o'), fun o _ => h2 o⟩, fun o _ => h3 o⟩

/-- The default map obeys the three constraints (R77). -/
theorem opcodeMap_legal : opcodeMap.Legal := opcodeMap.legalCheck_iff.mp (by decide)

@[simp] theorem regByte_toNat (a : Reg) : (regByte a).toNat = a.val := by
  have := a.isLt
  simp [regByte]; omega

@[simp] theorem regOperand_regByte (a : Reg) : regOperand (regByte a) = .ok a := by
  simp [regOperand]

/-- The operand check passes exactly the bytes of the register numbers (R74). -/
theorem regOperand_ok_iff {b : Byte} {a : Reg} : regOperand b = .ok a ↔ b = regByte a := by
  constructor
  · intro h
    unfold regOperand at h
    split at h
    · cases h; apply BitVec.eq_of_toNat_eq; simp
    · cases h
  · rintro rfl; simp

theorem regOperand_bad {b : Byte} (h : 8 ≤ b.toNat) : regOperand b = .error (.badRegister b) := by
  simp [regOperand, Nat.not_lt.mpr h]

theorem oneRegister_ok_iff {f : Reg → Instr} {b1 : Byte} {i : Instr} :
    oneRegister f b1 = .ok i ↔ ∃ a, b1 = regByte a ∧ i = f a := by
  unfold oneRegister
  cases h : regOperand b1 with
  | error e =>
    simp only [bind, Except.bind, reduceCtorEq, false_iff]
    rintro ⟨a, rfl, -⟩
    simp at h
  | ok a =>
    rw [regOperand_ok_iff] at h
    subst h
    simp only [bind, Except.bind, pure, Except.pure, Except.ok.injEq]
    constructor
    · rintro rfl; exact ⟨a, rfl, rfl⟩
    · rintro ⟨a', h1, rfl⟩
      have : a'= a := Fin.ext (by simpa using (congrArg BitVec.toNat h1).symm)
      rw [this]

theorem twoRegisters_ok_iff {f : Reg → Reg → Instr} {b1 b2 : Byte} {i : Instr} :
    twoRegisters f b1 b2 = .ok i ↔ ∃ a b, b1 = regByte a ∧ b2 = regByte b ∧ i = f a b := by
  unfold twoRegisters
  cases h : regOperand b1 with
  | error e =>
    simp only [bind, Except.bind, reduceCtorEq, false_iff]
    rintro ⟨a, b, rfl, -, -⟩
    simp at h
  | ok a =>
    rw [regOperand_ok_iff] at h
    subst h
    have key : ∀ a', regByte a = regByte a' ↔ a' = a := fun a' =>
      ⟨fun h1 => Fin.ext (by simpa using (congrArg BitVec.toNat h1).symm), fun h1 => by rw [h1]⟩
    have one := oneRegister_ok_iff (f := f a) (b1 := b2) (i := i)
    unfold oneRegister at one
    simp only [bind, Except.bind] at one ⊢
    rw [one]
    constructor
    · rintro ⟨b, h1, h2⟩; exact ⟨a, b, rfl, h1, h2⟩
    · rintro ⟨a', b, h1, h2, h3⟩
      rw [(key a').mp h1] at h3
      exact ⟨b, h2, h3⟩

/-- What the operand check and assembly answer: an instruction of the operation whose operand bytes are `b1`, `b2` as
far as the format has them (R73, R74). -/
theorem assemble_ok_iff {o : Operation} {b1 b2 : Byte} {i : Instr} :
    assemble o b1 b2 = .ok i ↔ i.operation = o ∧ i.operandBytes = [b1, b2].take o.format.operands := by
  cases o <;> simp only [assemble, oneRegister_ok_iff, twoRegisters_ok_iff, Except.ok.injEq] <;> constructor
  all_goals first
    | (rintro ⟨a, b, rfl, rfl, rfl⟩; exact ⟨rfl, rfl⟩)
    | (rintro ⟨a, rfl, rfl⟩; exact ⟨rfl, rfl⟩)
    | (rintro ⟨h1, h2⟩
       cases i <;> first
         | exact Operation.noConfusion h1
         | rfl
         | (simp only [Instr.operandBytes, Operation.format, Format.operands, List.take_succ_cons, List.take_zero,
              List.cons.injEq, and_true] at h2
            first
              | (obtain ⟨rfl, rfl⟩ := h2; exact ⟨_, rfl, rfl⟩)
              | (obtain ⟨rfl, rfl⟩ := h2; exact ⟨_, _, rfl, rfl, rfl⟩)))

/-- What the decoder answers, over any reader, under a legal map: the opcode read and found, the operands its count
asks for read in order, and the instruction they make (40_fetch_decode_execute.md R101-R104). -/
theorem decodeFrom_ok_iff {ε : Type} {m : OpcodeMap} (hm : m.Legal) {read : Nat → Except ε Byte}
    {reject : DecodeReject → ε} {i : Instr} :
    decodeFrom m read reject = .ok i ↔
      read 0 = .ok (m i.operation) ∧
        ∀ (k : Nat) (h : k < i.operandBytes.length), read (k + 1) = .ok i.operandBytes[k] := by
  unfold decodeFrom
  cases h0 : read 0 with
  | error e => simp [bind, Except.bind]
  | ok op =>
    simp only [bind, Except.bind, Except.ok.injEq]
    cases hl : m.lookup op with
    | none =>
      simp only [reduceCtorEq, false_iff, not_and]
      rintro rfl
      simp [OpcodeMap.lookup_self hm] at hl
    | some o =>
      have ho : op = m o := (OpcodeMap.eq_of_lookup hl).symm
      subst ho
      have hc := hm.counts o
      have hop : m o = m i.operation ↔ i.operation = o :=
        ⟨fun h => (hm.distinct _ _ h).symm, fun h => by rw [h]⟩
      have hmap : ∀ b1 b2, (assemble o b1 b2).mapError reject = .ok i ↔ assemble o b1 b2 = .ok i := by
        intro b1 b2; cases assemble o b1 b2 <;> simp [Except.mapError]
      rw [hop]
      have hlen : i.operation = o → i.operandBytes.length = o.format.operands := by
        rintro rfl; cases i <;> rfl
      simp only [hc]
      have hops : o.format.operands = 0 ∨ o.format.operands = 1 ∨ o.format.operands = 2 := by
        cases o.format <;> decide
      rcases hops with hn | hn | hn
      · rw [if_neg (by omega), if_neg (by omega)]
        simp only [hmap, assemble_ok_iff, hn, List.take_zero]
        constructor
        · rintro ⟨h, hb⟩
          exact ⟨h, fun k hk => by simp [hb] at hk⟩
        · rintro ⟨h, -⟩
          exact ⟨h, List.length_eq_zero_iff.mp (by rw [hlen h, hn])⟩
      · rw [if_pos (by omega)]
        cases h1 : read 1 with
        | error e =>
          simp only [reduceCtorEq, false_iff, not_and]
          intro h hk
          have := hk 0 (by rw [hlen h, hn]; omega)
          simp [h1] at this
        | ok b1 =>
          have h2 : ¬ o.format.operands = 2 := by omega
          dsimp only
          rw [if_neg h2, hmap, assemble_ok_iff, hn]
          constructor
          · rintro ⟨h, hb⟩
            refine ⟨h, fun k hk => ?_⟩
            have hk' : k < 1 := by rw [hlen h, hn] at hk; exact hk
            interval_cases k
            simp [hb, h1]
          · rintro ⟨h, hk⟩
            obtain ⟨c, hc'⟩ := List.length_eq_one_iff.mp ((hlen h).trans hn)
            have := hk 0 (by rw [hlen h, hn]; omega)
            simp [hc', h1] at this
            exact ⟨h, by simp [hc', this]⟩
      · rw [if_pos (by omega)]
        cases h1 : read 1 with
        | error e =>
          simp only [reduceCtorEq, false_iff, not_and]
          intro h hk
          have := hk 0 (by rw [hlen h, hn]; omega)
          simp [h1] at this
        | ok b1 =>
          simp only [if_pos hn]
          cases h2 : read 2 with
          | error e =>
            simp only [reduceCtorEq, false_iff, not_and]
            intro h hk
            have := hk 1 (by rw [hlen h, hn]; omega)
            simp [h2] at this
          | ok b2 =>
            simp only [hmap, assemble_ok_iff, hn]
            constructor
            · rintro ⟨h, hb⟩
              refine ⟨h, fun k hk => ?_⟩
              have hk' : k < 2 := by rw [hlen h, hn] at hk; exact hk
              interval_cases k
              · simp [hb, h1]
              · simp [hb, h2]
            · rintro ⟨h, hk⟩
              obtain ⟨c, d, hc'⟩ := List.length_eq_two.mp ((hlen h).trans hn)
              have e0 := hk 0 (by rw [hlen h, hn]; omega)
              have e1 := hk 1 (by rw [hlen h, hn]; omega)
              simp [hc', h1] at e0
              simp [hc', h2] at e1
              exact ⟨h, by simp [hc', e0, e1]⟩

end Sys2Proof
end

