-- ==== Sys2Proof/Laws/Step.lean ====
section
/-! SUPPORT. Everything the fetch phases and the step can answer (40_fetch_decode_execute.md R100-R105). -/

namespace Sys2Proof.Machine

/-- The second operand byte matters only to a format with two operands. -/
theorem assemble_second {o : Operation} (h : o.format.operands ≠ 2) (b1 b2 c2 : Byte) :
    assemble o b1 b2 = assemble o b1 c2 := by
  cases o <;> first | rfl | exact absurd rfl h

/-- The operand bytes do not matter to a format without operands. -/
theorem assemble_none {o : Operation} (h : o.format.operands = 0) (b1 b2 c1 c2 : Byte) :
    assemble o b1 b2 = assemble o c1 c2 := by
  cases o <;> first | rfl | exact absurd h (by decide)

/-- Everything the fetch phases answer, under a legal map, in the order of 60_exceptions.md R207. -/
theorem fetchInstr_eq {m : OpcodeMap} (hm : m.Legal) (s : State) :
    fetchInstr m s =
      if 255 < s.pc then .error (.outOfBoundsError .fetch s.pc s.pc)
      else match m.lookup (s.mem.read s.pc) with
        | none => .error (.decodeError .unknownOpcode (s.mem.read s.pc) s.pc)
        | some o =>
          if 255 < s.pc + o.format.operands then .error (.outOfBoundsError .operandFetch 256 s.pc)
          else (assemble o (s.mem.read (s.pc + 1)) (s.mem.read (s.pc + 2))).mapError s.rejectRecord := by
  unfold fetchInstr decodeFrom
  by_cases hpc : 255 < s.pc
  · rw [s.readCode_above (k := 0) (by omega), if_pos hpc]
    simp [bind, Except.bind]
  · rw [s.readCode_in (k := 0) (by omega), if_neg hpc]
    simp only [bind, Except.bind, Nat.add_zero]
    cases hl : m.lookup (s.mem.read s.pc) with
    | none => rfl
    | some o =>
      have hc : operandCount (s.mem.read s.pc) = o.format.operands := by
        rw [← OpcodeMap.eq_of_lookup hl]; exact hm.counts o
      dsimp only
      have hops : o.format.operands = 0 ∨ o.format.operands = 1 ∨ o.format.operands = 2 := by
        cases o.format <;> decide
      have hcast : ∀ k : Nat, s.pc + k = 256 → ((s.pc : Int) + (k : Int)) = 256 := by intro k h; omega
      rcases hops with hn | hn | hn
      · rw [if_neg (by omega), if_neg (by omega), if_neg (by omega)]
        rw [assemble_none hn]
      · rw [if_pos (by omega)]
        by_cases h1 : 255 < s.pc + o.format.operands
        · rw [if_pos h1, s.readCode_above (k := 1) (by omega), hcast 1 (by omega)]; rfl
        · rw [if_neg h1, s.readCode_in (k := 1) (by omega)]
          dsimp only
          rw [if_neg (by omega), assemble_second (by omega)]
      · rw [if_pos (by omega)]
        by_cases h0 : 255 < s.pc + 1
        · rw [if_pos (by omega), s.readCode_above (k := 1) h0, hcast 1 (by omega)]; rfl
        · rw [s.readCode_in (k := 1) (by omega)]
          dsimp only
          rw [if_pos (by omega)]
          by_cases h1 : 255 < s.pc + o.format.operands
          · rw [if_pos h1, s.readCode_above (k := 2) (by omega), hcast 2 (by omega)]; rfl
          · rw [if_neg h1, s.readCode_in (k := 2) (by omega)]

/-- The fetch phases answer an instruction exactly where its bytes stand at `pc`, inside memory (R101-R104). -/
theorem fetchInstr_ok_iff {m : OpcodeMap} (hm : m.Legal) {s : State} {i : Instr} :
    fetchInstr m s = .ok i ↔ s.readCode 0 = .ok (m i.operation) ∧
      ∀ (k : Nat) (h : k < i.operandBytes.length), s.readCode (k + 1) = .ok i.operandBytes[k] :=
  decodeFrom_ok_iff hm

theorem State.readCode_ok_iff {s : State} {k : Nat} {v : Byte} :
    s.readCode k = .ok v ↔ s.pc + k ≤ 255 ∧ s.mem.read (s.pc + k) = v := by
  by_cases h : s.pc + k ≤ 255
  · simp [s.readCode_in h, h]
  · simp [s.readCode_above (k := k) (by omega), h]

theorem Instr.operandBytes_length (i : Instr) : i.operandBytes.length = i.operation.format.operands := by
  cases i <;> rfl

/-- A fetched instruction lies wholly inside memory (R103). -/
theorem pc_add_length_le {m : OpcodeMap} (hm : m.Legal) {s : State} {i : Instr} (h : fetchInstr m s = .ok i) :
    s.pc + i.length ≤ 256 := by
  obtain ⟨h0, hk⟩ := (fetchInstr_ok_iff hm).mp h
  unfold Instr.length
  rw [← Instr.operandBytes_length]
  rcases hl : i.operandBytes.length with _ | n
  · have := (State.readCode_ok_iff.mp h0).1; omega
  · have := (State.readCode_ok_iff.mp (hk n (by omega))).1; omega

/-- Everything a step can do: nothing when Halted, else an error of the fetch phases or the fetched instruction. -/
theorem stepWith_cases {m : OpcodeMap} {s t : State} (h : stepWith m s = .next t) :
    s.run = .running ∧
      ((∃ r, fetchInstr m s = .error r ∧ t = s.halt r) ∨ ∃ i, fetchInstr m s = .ok i ∧ exec i s = .next t) := by
  unfold stepWith at h
  cases hr : s.run with
  | halted r => rw [hr] at h; simp at h
  | running =>
    rw [hr] at h
    refine ⟨rfl, ?_⟩
    cases hf : fetchInstr m s with
    | error r =>
      rw [hf] at h
      simp only [raise_eq, Host.Outcome.next.injEq] at h
      exact .inl ⟨r, rfl, h.symm⟩
    | ok i => rw [hf] at h; exact .inr ⟨i, rfl, h⟩

theorem stepWith_of_ok {m : OpcodeMap} {s : State} {i : Instr} (hr : s.run = .running) (h : fetchInstr m s = .ok i) :
    stepWith m s = exec i s := by
  simp [stepWith, hr, h]

theorem stepWith_of_error {m : OpcodeMap} {s : State} {r : HaltReason} (hr : s.run = .running)
    (h : fetchInstr m s = .error r) : stepWith m s = .next (s.halt r) := by
  simp [stepWith, hr, h, raise_eq]

/-- The records the fetch phases make name the instruction's address and are an out-of-bounds fetch or a decode
error. -/
theorem fetchInstr_error_cases {m : OpcodeMap} (hm : m.Legal) {s : State} {r : HaltReason}
    (h : fetchInstr m s = .error r) :
    (255 < s.pc ∧ r = .outOfBoundsError .fetch s.pc s.pc) ∨
    (s.pc ≤ 255 ∧ m.lookup (s.mem.read s.pc) = none ∧ r = .decodeError .unknownOpcode (s.mem.read s.pc) s.pc) ∨
    ∃ o, s.pc ≤ 255 ∧ s.mem.read s.pc = m o ∧
      ((255 < s.pc + o.format.operands ∧ r = .outOfBoundsError .operandFetch 256 s.pc) ∨
       (s.pc + o.format.operands ≤ 255 ∧ ∃ k, 1 ≤ k ∧ k ≤ o.format.registers ∧
          7 < (s.mem.read (s.pc + k)).toNat ∧ r = .decodeError .badRegister (s.mem.read (s.pc + k)) s.pc)) := by
  rw [fetchInstr_eq hm] at h
  by_cases hpc : 255 < s.pc
  · rw [if_pos hpc] at h
    injection h with h
    exact .inl ⟨hpc, h.symm⟩
  · rw [if_neg hpc] at h
    cases hl : m.lookup (s.mem.read s.pc) with
    | none =>
      rw [hl] at h
      injection h with h
      exact .inr (.inl ⟨by omega, rfl, h.symm⟩)
    | some o =>
      rw [hl] at h
      refine .inr (.inr ⟨o, by omega, (OpcodeMap.eq_of_lookup hl).symm, ?_⟩)
      dsimp only at h
      by_cases ho : 255 < s.pc + o.format.operands
      · rw [if_pos ho] at h
        injection h with h
        exact .inl ⟨ho, h.symm⟩
      · rw [if_neg ho] at h
        refine .inr ⟨by omega, ?_⟩
        have reg : ∀ (b : Byte) (e : DecodeReject), regOperand b = .error e → 7 < b.toNat ∧ e = .badRegister b := by
          intro b e he
          unfold regOperand at he
          split at he
          · cases he
          · injection he with he
            exact ⟨by omega, he.symm⟩
        have one : ∀ (f : Reg → Instr) (b : Byte) (e : DecodeReject), oneRegister f b = .error e →
            7 < b.toNat ∧ e = .badRegister b := by
          intro f b e he
          unfold oneRegister at he
          cases hb : regOperand b with
          | error e' => rw [hb] at he; injection he with he; exact he ▸ reg b e' hb
          | ok a => rw [hb] at he; cases he
        have two : ∀ (f : Reg → Reg → Instr) (b c : Byte) (e : DecodeReject), twoRegisters f b c = .error e →
            (7 < b.toNat ∧ e = .badRegister b) ∨ (7 < c.toNat ∧ e = .badRegister c) := by
          intro f b c e he
          unfold twoRegisters at he
          cases hb : regOperand b with
          | error e' => rw [hb] at he; injection he with he; exact .inl (he ▸ reg b e' hb)
          | ok a => rw [hb] at he; exact .inr (one (f a) c e he)
        cases ha : assemble o (s.mem.read (s.pc + 1)) (s.mem.read (s.pc + 2)) with
        | ok i => rw [ha] at h; cases h
        | error e =>
          rw [ha] at h
          injection h with h
          cases o
          case hlt => cases ha
          case ret => cases ha
          case add | mul | mod | cmp | and | or | xor | shl | shr =>
            rcases two _ _ _ _ ha with ⟨h7, rfl⟩ | ⟨h7, rfl⟩
            · exact ⟨1, by decide, by decide, h7, h.symm⟩
            · exact ⟨2, by decide, by decide, h7, h.symm⟩
          all_goals
            obtain ⟨h7, rfl⟩ := one _ _ _ ha
            exact ⟨1, by decide, by decide, h7, h.symm⟩

/-- Whatever the map, an error of the fetch phases is a decode error or an out-of-bounds access whose record names the
instruction's address. -/
theorem fetchInstr_error_record {m : OpcodeMap} {s : State} {r : HaltReason} (h : fetchInstr m s = .error r) :
    (∃ sub b, r = .decodeError sub b s.pc) ∨ ∃ kind a, r = .outOfBoundsError kind a s.pc := by
  have rd : ∀ k e, s.readCode k = .error e → ∃ kind a, e = .outOfBoundsError kind a s.pc := by
    intro k e he
    by_cases hk : s.pc + k ≤ 255
    · rw [s.readCode_in hk] at he; cases he
    · rw [s.readCode_above (by omega)] at he; injection he with he; exact ⟨_, _, he.symm⟩
  have rj : ∀ o b1 b2 e, (assemble o b1 b2).mapError s.rejectRecord = .error e →
      (∃ sub b, e = .decodeError sub b s.pc) ∨ ∃ kind a, e = .outOfBoundsError kind a s.pc := by
    intro o b1 b2 e he
    cases ha : assemble o b1 b2 with
    | ok i => rw [ha] at he; cases he
    | error x =>
      rw [ha] at he
      injection he with he
      cases x with
      | unknownOpcode op => exact .inl ⟨_, _, he.symm⟩
      | badRegister b => exact .inl ⟨_, _, he.symm⟩
      | noByte k => exact .inr ⟨_, _, he.symm⟩
  unfold fetchInstr decodeFrom at h
  cases h0 : s.readCode 0 with
  | error e => rw [h0] at h; injection h with h; subst h; exact .inr (rd 0 _ h0)
  | ok op =>
    rw [h0] at h
    simp only [bind, Except.bind] at h
    cases hl : m.lookup op with
    | none => rw [hl] at h; injection h with h; exact .inl ⟨_, _, h.symm⟩
    | some o =>
      rw [hl] at h
      have second : ∀ b1, (Except.bind (s.readCode 2) fun b2 => (assemble o b1 b2).mapError s.rejectRecord) = .error r →
          (∃ sub b, r = .decodeError sub b s.pc) ∨ ∃ kind a, r = .outOfBoundsError kind a s.pc := by
        intro b1 h
        cases h2 : s.readCode 2 with
        | error e => rw [h2] at h; injection h with h; subst h; exact .inr (rd 2 _ h2)
        | ok b2 => rw [h2] at h; exact rj _ _ _ _ h
      dsimp only at h
      split at h
      · cases h1 : s.readCode 1 with
        | error e => rw [h1] at h; injection h with h; subst h; exact .inr (rd 1 _ h1)
        | ok b1 =>
          rw [h1] at h
          dsimp only at h
          split at h
          · exact second _ h
          · exact rj _ _ _ _ h
      · split at h
        · exact second _ h
        · exact rj _ _ _ _ h

end Sys2Proof.Machine
end

