-- ==== Sys2Proof/Laws/Block.lean ====
section
/-! SUPPORT. What each host action can answer (10_state.md R40-R43, 70_reset_and_hazards.md R231), and a run lengthened by
its last step. -/

namespace Sys2Proof.Machine

/-- A Running core has a step. -/
theorem step_of_running {m : OpcodeMap} {s : State} (hr : s.run = .running) : ∃ t, stepWith m s = .next t := by
  cases hf : fetchInstr m s with
  | error r => exact ⟨_, stepWith_of_error hr hf⟩
  | ok i => exact ⟨_, (stepWith_of_ok hr hf).trans (exec_eq _ i)⟩

/-- A Halted core has none. -/
theorem step_of_halted {m : OpcodeMap} {s : State} {r : HaltReason} (hr : s.run = .halted r) :
    stepWith m s = .fault .halted := by simp [stepWith, hr]

/-- A run of one step more is the run, then the step it can still take. -/
theorem runUpTo_succ_last {m : OpcodeMap} {t : State} :
    ∀ {n : Nat} {s : State}, stepWith m (runUpTo m n s) = .next t → runUpTo m (n + 1) s = t
  | 0, s, h => by rw [runUpTo] at h; simp [runUpTo, h]
  | n + 1, s, h => by
    cases hs : stepWith m s with
    | next u =>
      rw [runUpTo, hs] at h ⊢
      exact runUpTo_succ_last h
    | fault r => rw [runUpTo, hs] at h; rw [hs] at h; cases h
    | refused r => rw [runUpTo, hs] at h; rw [hs] at h; cases h

theorem Block.load_cases {b b' : Block} {image : List Byte} (h : b.load image = .ok b') :
    b.phase = .awaitingImage ∧ ∃ s, b.core.loadImage image = some s ∧ b' = { b with core := s, phase := .loaded } := by
  unfold Block.load at h
  cases hp : b.phase with
  | awaitingImage =>
    cases hl : b.core.loadImage image with
    | some s =>
      rw [hp] at h; simp only [hl] at h
      exact ⟨rfl, s, rfl, (Except.ok.inj h).symm⟩
    | none => rw [hp] at h; simp only [hl] at h; cases h
  | loaded => rw [hp] at h; cases h
  | loadFailed => rw [hp] at h; cases h
  | started => rw [hp] at h; cases h

theorem Block.failLoad_cases {b b' : Block} (h : b.failLoad = .ok b') :
    b.phase = .awaitingImage ∧ b' = { b with phase := .loadFailed } := by
  unfold Block.failLoad at h
  cases hp : b.phase with
  | awaitingImage => rw [hp] at h; exact ⟨rfl, (Except.ok.inj h).symm⟩
  | loaded => rw [hp] at h; cases h
  | loadFailed => rw [hp] at h; cases h
  | started => rw [hp] at h; cases h

theorem Block.setCeiling_cases {b b' : Block} {n : Nat} (h : b.setCeiling n = .ok b') :
    b.phase = .loaded ∧ b' = { b with ceiling := some n } := by
  unfold Block.setCeiling at h
  cases hp : b.phase with
  | loaded => rw [hp] at h; exact ⟨rfl, (Except.ok.inj h).symm⟩
  | awaitingImage => rw [hp] at h; cases h
  | loadFailed => rw [hp] at h; cases h
  | started => rw [hp] at h; cases h

/-- What a step asked of the core answers, by its run state and the ceiling. -/
theorem Block.run_eq (b : Block) :
    (∃ r, b.core.run = .halted r ∧ b.run = .error .coreHalted) ∨
    (b.core.run = .running ∧ b.atCeiling = true ∧ b.run = .error .ceilingReached) ∨
    (b.core.run = .running ∧ b.atCeiling = false ∧ ∃ t, Sys2Proof.Machine.step b.core = .next t ∧
      b.run = .ok { b with core := t, phase := .started, taken := b.taken + 1 }) := by
  cases hr : b.core.run with
  | halted r =>
    have hs : Sys2Proof.Machine.step b.core = .fault .halted := step_of_halted hr
    exact .inl ⟨r, rfl, by rw [Block.run, hs]⟩
  | running =>
    obtain ⟨t, ht⟩ := step_of_running (m := opcodeMap) hr
    have hs : Sys2Proof.Machine.step b.core = .next t := ht
    cases hc : b.atCeiling with
    | true => exact .inr (.inl ⟨rfl, rfl, by simp [Block.run, hs, hc]⟩)
    | false => exact .inr (.inr ⟨rfl, rfl, t, hs, by simp [Block.run, hs, hc]⟩)

theorem Block.run_cases {b b' : Block} (h : b.run = .ok b') :
    b.atCeiling = false ∧ ∃ t, Sys2Proof.Machine.step b.core = .next t ∧
      b' = { b with core := t, phase := .started, taken := b.taken + 1 } := by
  rcases b.run_eq with ⟨_, -, hb⟩ | ⟨-, -, hb⟩ | ⟨-, hc, t, hs, hb⟩
  · rw [hb] at h; cases h
  · rw [hb] at h; cases h
  · exact ⟨hc, t, hs, (Except.ok.inj (hb.symm.trans h)).symm⟩

/-- A step is asked of the core only once its image is loaded. -/
theorem Block.act_step_of_loaded {b : Block} (hp : b.phase = .loaded ∨ b.phase = .started) : b.act .step = b.run := by
  rcases hp with hp | hp <;> simp only [Block.act, hp]

theorem Block.act_step_cases {b b' : Block} (h : b.act .step = .ok b') :
    (b.phase = .loaded ∨ b.phase = .started) ∧ b.run = .ok b' := by
  cases hp : b.phase with
  | loaded => exact ⟨.inl rfl, (Block.act_step_of_loaded (.inl hp)).symm.trans h⟩
  | started => exact ⟨.inr rfl, (Block.act_step_of_loaded (.inr hp)).symm.trans h⟩
  | awaitingImage => simp only [Block.act, hp] at h; cases h
  | loadFailed => simp only [Block.act, hp] at h; cases h

end Sys2Proof.Machine
end

