-- ==== Sys2Proof/Laws/Boot.lean ====
section
/-! SUPPORT. Reset and launch: every field after reset, what memory reads as, and what loading does (10_state.md R37,
R42). -/

namespace Sys2Proof.Machine

variable (p : LaunchParams)

@[simp] theorem resetWith_pc : (State.resetWith p).pc = 0 := rfl
@[simp] theorem resetWith_run : (State.resetWith p).run = .running := rfl
@[simp] theorem resetWith_out : (State.resetWith p).out = [] := rfl
@[simp] theorem resetWith_e : (State.resetWith p).fl.e = false := rfl
@[simp] theorem resetWith_l : (State.resetWith p).fl.l = false := rfl
@[simp] theorem resetWith_g : (State.resetWith p).fl.g = false := rfl
@[simp] theorem resetWith_arithFaultPcAdvance :
    (State.resetWith p).arithFaultPcAdvance = p.arithFaultPcAdvance := rfl

theorem resetWith_reg (r : Reg) :
    (State.resetWith p).reg r = if h : r.val < 7 then p.regInit ⟨r.val, h⟩ else spReset := by
  show (resetRegs p.regInit)[r.val] = _
  simp only [resetRegs, Vector.getElem_ofFn]

theorem resetWith_mem : (State.resetWith p).mem = resetMem p.memInit := by simp only [State.resetWith]

theorem resetWith_mem_wf : (State.resetWith p).mem.wf := by
  rw [resetWith_mem, resetMem]
  exact Memory.wf_writeFrom Memory.wf_nil _ _

theorem resetWith_mem_read (a : Nat) :
    (State.resetWith p).mem.read a = if h : a < 256 then p.memInit ⟨a, h⟩ else unlisted := by
  rw [resetWith_mem, resetMem, Memory.read_writeFrom]
  by_cases h : a < 256
  · rw [dif_pos ⟨Nat.zero_le a, by simp [h, -List.ofFn_succ], h⟩, dif_pos h]
    simp [-List.ofFn_succ]
  · rw [dif_neg (fun hc => h hc.2.2), dif_neg h]; rfl

/-- What a launch answers. -/
theorem launch_eq (image : List Byte) :
    launch p image = if image.length ≤ 256 then
      some ((State.resetWith p).setMem ((State.resetWith p).mem.writeFrom 0 image)) else none := rfl

theorem writeFrom_unlisted (n a : Nat) : Memory.writeFrom [] a (List.replicate n unlisted) = [] := by
  induction n generalizing a with
  | zero => rfl
  | succ n ih =>
    rw [List.replicate_succ, Memory.writeFrom]
    have : Memory.write [] a unlisted = [] := by simp [Memory.write, Memory.erase]
    rw [this, ite_self, ih]

/-- `State.reset` is the reset of the default launch parameters. -/
theorem reset_eq_resetWith : State.reset = State.resetWith defaultLaunch := by
  have hmem : (State.resetWith defaultLaunch).mem = [] := by
    rw [resetWith_mem, resetMem]
    simp only [defaultLaunch, List.ofFn_const]
    exact writeFrom_unlisted 256 0
  have hregs : (State.resetWith defaultLaunch).regs = State.reset.regs := by
    show resetRegs defaultLaunch.regInit = _
    decide
  cases hs : State.resetWith defaultLaunch
  rw [hs] at hmem hregs
  simp only at hmem hregs
  have hpc := congrArg State.pc hs
  have hfl := congrArg State.fl hs
  have hrun := congrArg State.run hs
  have hout := congrArg State.out hs
  have hadv := congrArg State.arithFaultPcAdvance hs
  subst hmem hregs hpc hfl hrun hout hadv
  rfl

end Sys2Proof.Machine
end

