-- ==== Sys2Proof/Laws/PerInstr.lean ====
section
/-! SUPPORT. The per-instruction family WellFormedEncoding: under every legal opcode map the encoding of an instruction
passes the checks of WellFormed.lean. One lemma per constructor of Instr. -/

namespace Sys2Proof

/-- The operand bytes of register numbers pass the register check (30_encoding.md R74). -/
theorem regByte_le (a : Reg) : (regByte a).toNat ≤ 7 := by
  rw [regByte_toNat]; omega

/-- The family's statement: the instruction's encoding is well formed, whatever legal map is used. -/
def Laws.WellFormedEncoding.Statement (i : Instr) : Prop :=
  ∀ m : OpcodeMap, m.Legal → wellFormed m (encode m i) = true

theorem regBytes_le (a b : Reg) : ∀ c ∈ [regByte a, regByte b], c.toNat ≤ 7 := by
  simp only [List.mem_cons, List.not_mem_nil, or_false]
  rintro c (rfl | rfl) <;> exact regByte_le _

/-- An encoding is well formed once its operand bytes fit the format (R71-R74). -/
theorem wellFormed_encode_of {i : Instr} (hn : i.operandBytes.length = i.operation.format.operands)
    (hr : ∀ b ∈ i.operandBytes.take i.operation.format.registers, b.toNat ≤ 7) :
    Laws.WellFormedEncoding.Statement i := by
  intro m hm
  simp only [encode, wellFormed, opcodeRecognized, operandCountMatches, registersInRange, OpcodeMap.lookup_self hm,
    hm.counts, hn, Option.isSome_some, BEq.rfl, Bool.true_and, List.all_eq_true, decide_eq_true_eq]
  exact hr

theorem Laws.WellFormedEncoding.hlt : Laws.WellFormedEncoding.Statement .hlt :=
  wellFormed_encode_of rfl fun _ hb => absurd hb (List.not_mem_nil)

theorem Laws.WellFormedEncoding.ret : Laws.WellFormedEncoding.Statement .ret :=
  wellFormed_encode_of rfl fun _ hb => absurd hb (List.not_mem_nil)

theorem Laws.WellFormedEncoding.push (a : Reg) : Laws.WellFormedEncoding.Statement (.push a) :=
  wellFormed_encode_of rfl fun _ hb => List.mem_singleton.mp hb ▸ regByte_le a

theorem Laws.WellFormedEncoding.pop (a : Reg) : Laws.WellFormedEncoding.Statement (.pop a) :=
  wellFormed_encode_of rfl fun _ hb => List.mem_singleton.mp hb ▸ regByte_le a

theorem Laws.WellFormedEncoding.prn (a : Reg) : Laws.WellFormedEncoding.Statement (.prn a) :=
  wellFormed_encode_of rfl fun _ hb => List.mem_singleton.mp hb ▸ regByte_le a

theorem Laws.WellFormedEncoding.call (a : Reg) : Laws.WellFormedEncoding.Statement (.call a) :=
  wellFormed_encode_of rfl fun _ hb => List.mem_singleton.mp hb ▸ regByte_le a

theorem Laws.WellFormedEncoding.jmp (a : Reg) : Laws.WellFormedEncoding.Statement (.jmp a) :=
  wellFormed_encode_of rfl fun _ hb => List.mem_singleton.mp hb ▸ regByte_le a

theorem Laws.WellFormedEncoding.jeq (a : Reg) : Laws.WellFormedEncoding.Statement (.jeq a) :=
  wellFormed_encode_of rfl fun _ hb => List.mem_singleton.mp hb ▸ regByte_le a

theorem Laws.WellFormedEncoding.jne (a : Reg) : Laws.WellFormedEncoding.Statement (.jne a) :=
  wellFormed_encode_of rfl fun _ hb => List.mem_singleton.mp hb ▸ regByte_le a

theorem Laws.WellFormedEncoding.not (a : Reg) : Laws.WellFormedEncoding.Statement (.not a) :=
  wellFormed_encode_of rfl fun _ hb => List.mem_singleton.mp hb ▸ regByte_le a

theorem Laws.WellFormedEncoding.ldi (a : Reg) (imm : Byte) : Laws.WellFormedEncoding.Statement (.ldi a imm) :=
  wellFormed_encode_of rfl fun _ hb => List.mem_singleton.mp hb ▸ regByte_le a

theorem Laws.WellFormedEncoding.add (a b : Reg) : Laws.WellFormedEncoding.Statement (.add a b) :=
  wellFormed_encode_of rfl (regBytes_le a b)

theorem Laws.WellFormedEncoding.mul (a b : Reg) : Laws.WellFormedEncoding.Statement (.mul a b) :=
  wellFormed_encode_of rfl (regBytes_le a b)

theorem Laws.WellFormedEncoding.mod (a b : Reg) : Laws.WellFormedEncoding.Statement (.mod a b) :=
  wellFormed_encode_of rfl (regBytes_le a b)

theorem Laws.WellFormedEncoding.cmp (a b : Reg) : Laws.WellFormedEncoding.Statement (.cmp a b) :=
  wellFormed_encode_of rfl (regBytes_le a b)

theorem Laws.WellFormedEncoding.and (a b : Reg) : Laws.WellFormedEncoding.Statement (.and a b) :=
  wellFormed_encode_of rfl (regBytes_le a b)

theorem Laws.WellFormedEncoding.or (a b : Reg) : Laws.WellFormedEncoding.Statement (.or a b) :=
  wellFormed_encode_of rfl (regBytes_le a b)

theorem Laws.WellFormedEncoding.xor (a b : Reg) : Laws.WellFormedEncoding.Statement (.xor a b) :=
  wellFormed_encode_of rfl (regBytes_le a b)

theorem Laws.WellFormedEncoding.shl (a b : Reg) : Laws.WellFormedEncoding.Statement (.shl a b) :=
  wellFormed_encode_of rfl (regBytes_le a b)

theorem Laws.WellFormedEncoding.shr (a b : Reg) : Laws.WellFormedEncoding.Statement (.shr a b) :=
  wellFormed_encode_of rfl (regBytes_le a b)

end Sys2Proof
end

