-- ==== Sys2Proof/Tests/Slice0.lean ====
section
/-! SUPPORT. The model's own tests. Expected results are the spec's: the vectors and examples of 95_test_vectors.md, the
corner cases of 41-44, and the encodings of 30_encoding.md R76. The witnesses show that the hypotheses of each statement
can be met, each clause at a boundary value. -/

namespace Sys2Proof.Tests

open Sys2Proof Sys2Proof.Machine

/-! ## Helpers -/

/-- The next state of an outcome. -/
def after : Host.Outcome State Fault Refusal → Option State
  | .next t => some t
  | _ => none

theorem eq_next {o : Host.Outcome State Fault Refusal} {t : State} (h : after o = some t) : o = .next t := by
  cases o with
  | next s => exact congrArg _ (Option.some.inj h)
  | fault r => exact absurd h (by simp [after])
  | refused r => exact absurd h (by simp [after])

/-- The reset state with `pc` moved and bytes placed there. -/
def at_ (pc : Nat) (code : List Byte) : State := ({ State.reset with pc := pc } : State).placeCode code

/-- `x[r] <- v` for several registers. -/
def withRegs (s : State) (rs : List (Reg × Byte)) : State := rs.foldl (fun s p => s.setReg p.1 p.2) s

/-- The result of one step: registers asked for, `pc`, flags byte and run state. -/
def result (s : State) (rs : List Reg) : Option (List Byte × Nat × Byte × RunState) :=
  (after (step s)).map fun t => (rs.map t.reg, t.pc, t.fl.toByte, t.run)

/-- The error a step ends with, when all else is the state before it (60_exceptions.md R205). -/
def errorOf (s : State) : Option HaltReason :=
  match after (step s) with
  | some t =>
    match t.run with
    | .halted r => if t = { s with run := t.run } then some r else none
    | .running => none
  | none => none

/-! ## Well-formedness: an ill-formed term for each check -/

theorem test_legal_default : opcodeMap.legalCheck = true := by decide
theorem test_map_not_distinct : OpcodeMap.distinctCheck (fun o => if o = .ret then 0x01 else opcodeMap o) = false := by
  decide
theorem test_map_bad_count : OpcodeMap.countsCheck (fun o => if o = .ret then 0x51 else opcodeMap o) = false := by decide
theorem test_map_three_operands : OpcodeMap.noThreeCheck (fun o => if o = .ret then 0xC0 else opcodeMap o) = false := by
  decide
theorem test_wf_empty : wellFormed opcodeMap [] = false := by decide
theorem test_wf_unknown_opcode : opcodeRecognized opcodeMap 0xA1 = false ∧ wellFormed opcodeMap [0xA1, 0, 1] = false := by
  decide
theorem test_wf_count : operandCountMatches 0xA0 [0] = false ∧ wellFormed opcodeMap [0xA0, 0] = false ∧
    wellFormed opcodeMap [0x01, 0] = false := by decide
theorem test_wf_register : registersInRange opcodeMap 0xA0 [3, 0x10] = false ∧
    wellFormed opcodeMap [0xA0, 8, 0] = false ∧ wellFormed opcodeMap [0xA0, 3, 0x10] = false := by decide
theorem test_wf_accepts : wellFormed opcodeMap [0x82, 0, 0xFF] = true ∧ wellFormed opcodeMap [0x11] = true := by decide
theorem test_mem_not_canonical : ¬ Memory.wf [(2, 1), (1, 1)] ∧ ¬ Memory.wf [(1, 0)] ∧ ¬ Memory.wf [(256, 1)] := by
  decide

/-! ## Decoding: every constructor's bytes, written out from 30_encoding.md R73 and R76 -/

theorem test_decode_f0 :
    decodeTableWord 8 0b00000001 = some .hlt ∧ decodeTableWord 8 0b00010001 = some .ret := by decide
theorem test_decode_f1r :
    decodeTableWord 16 0b00000001_01000101 = some (.push 1) ∧ decodeTableWord 16 0b00000010_01000110 = some (.pop 2) ∧
    decodeTableWord 16 0b00000011_01000111 = some (.prn 3) ∧ decodeTableWord 16 0b00000100_01010000 = some (.call 4) ∧
    decodeTableWord 16 0b00000101_01010100 = some (.jmp 5) ∧ decodeTableWord 16 0b00000110_01010101 = some (.jeq 6) ∧
    decodeTableWord 16 0b00000111_01010110 = some (.jne 7) ∧ decodeTableWord 16 0b00000000_01101001 = some (.not 0) := by
  decide
theorem test_decode_f2ri : decodeTableWord 24 0b10110100_00000110_10000010 = some (.ldi 6 0xB4) := by decide
theorem test_decode_f2rr :
    decodeTableWord 24 0b00000001_00000000_10100000 = some (.add 0 1) ∧
    decodeTableWord 24 0b00000010_00000001_10100010 = some (.mul 1 2) ∧
    decodeTableWord 24 0b00000011_00000010_10100100 = some (.mod 2 3) ∧
    decodeTableWord 24 0b00000100_00000011_10100111 = some (.cmp 3 4) ∧
    decodeTableWord 24 0b00000101_00000100_10101000 = some (.and 4 5) ∧
    decodeTableWord 24 0b00000110_00000101_10101010 = some (.or 5 6) ∧
    decodeTableWord 24 0b00000111_00000110_10101011 = some (.xor 6 7) ∧
    decodeTableWord 24 0b00000000_00000111_10101100 = some (.shl 7 0) ∧
    decodeTableWord 24 0b00000010_00000000_10101101 = some (.shr 0 2) := by decide
theorem test_decode_rejects :
    (decode opcodeMap [0xA1, 0, 1]).toOption = none ∧ decodeTableWord 8 0 = none ∧ decodeTableWord 8 0xE0 = none ∧
    decodeTableWord 16 0xFF45 = none ∧ (decode opcodeMap [0x82, 0]).toOption = none := by decide
/-- The opcode row's operand bits may be absent: they are then 0. -/
theorem test_decode_short_word : decodeTableWord 8 0xA0 = some (.add 0 0) := by decide
/-- P1 of 95_test_vectors.md, one instruction after another. -/
theorem test_decode_rest : (decode opcodeMap [0x82, 0, 8, 0x47, 0, 1]).toOption = some (.ldi 0 8, [0x47, 0, 1]) := by
  decide
/-- R80. -/
theorem test_assembly : (Instr.ldi 0 8).toAssembly = "LDI R0, 8" ∧ (Instr.add 5 2).toAssembly = "ADD R5, R2" ∧
    (Instr.push 3).toAssembly = "PUSH R3" ∧ Instr.hlt.toAssembly = "HLT" := by decide

/-! ## The first step after reset runs the placed word -/

theorem test_first_step :
    step (State.reset.withFetchWord 24 0x080082) = exec (.ldi 0 8) (State.reset.withFetchWord 24 0x080082) ∧
    step (State.reset.withFetchWord 8 0x01) = exec .hlt (State.reset.withFetchWord 8 0x01) := ⟨rfl, rfl⟩

/-! ## Fetch and decode errors (95_test_vectors.md 2.1) -/

/-- V-FD1 -/
theorem test_fetch_256 : errorOf (at_ 256 []) = some (.outOfBoundsError .fetch 256 256) := by decide
/-- V-FD2, V-FD4 -/
theorem test_unknown_opcode : errorOf (at_ 0 [0x00]) = some (.decodeError .unknownOpcode 0x00 0) ∧
    errorOf (at_ 0 [0xA1, 0, 1]) = some (.decodeError .unknownOpcode 0xA1 0) := by decide
/-- V-FD6: decode comes before the operand fetch. -/
theorem test_decode_before_operands : errorOf (at_ 0xFF [0xE0]) = some (.decodeError .unknownOpcode 0xE0 0xFF) := by
  decide
/-- V-FD7, V-FD8 -/
theorem test_operand_fetch : errorOf (at_ 0xFF [0x82]) = some (.outOfBoundsError .operandFetch 256 0xFF) ∧
    errorOf (at_ 0xFE [0x82, 0]) = some (.outOfBoundsError .operandFetch 256 0xFE) := by decide
/-- V-FD12, V-FD13, V-FD16 -/
theorem test_bad_register : errorOf (at_ 0 [0xA0, 3, 0x10]) = some (.decodeError .badRegister 0x10 0) ∧
    errorOf (at_ 0 [0xA0, 9, 0x0A]) = some (.decodeError .badRegister 9 0) ∧
    errorOf (at_ 0 [0xA4, 9, 0]) = some (.decodeError .badRegister 9 0) := by decide
/-- V-FD10: the advance reaches 256 and does not wrap. -/
theorem test_advance_to_256 : result (withRegs (at_ 0xFD [0xA0, 0, 1]) [(0, 1), (1, 1)]) [0] =
    some ([2], 256, 0, .running) := by decide

/-! ## ALU (2.2) -/

/-- V-A1 -/
theorem test_add_wraps : result (withRegs (at_ 0 [0xA0, 0, 1]) [(0, 0xFF), (1, 2)]) [0, 1] =
    some ([1, 2], 3, 0, .running) := by decide
/-- V-A5: an ALU write to R7 wraps with no stack check. -/
theorem test_add_r7 : result (withRegs (at_ 0 [0xA0, 7, 1]) [(7, 0), (1, 0xFF)]) [7] = some ([0xFF], 3, 0, .running) := by
  decide
/-- V-A7, V-A10 -/
theorem test_mul : result (withRegs (at_ 0 [0xA2, 0, 1]) [(0, 20), (1, 13)]) [0] = some ([4], 3, 0, .running) ∧
    result (withRegs (at_ 0 [0xA2, 0, 0]) [(0, 15)]) [0] = some ([0xE1], 3, 0, .running) := by decide
/-- V-A11, V-A12 -/
theorem test_mod : result (withRegs (at_ 0 [0xA4, 0, 1]) [(0, 0x11), (1, 5)]) [0] = some ([2], 3, 0, .running) ∧
    result (withRegs (at_ 0 [0xA4, 0, 1]) [(0, 5), (1, 0x11)]) [0] = some ([5], 3, 0, .running) := by decide
/-- V-A15, W6: `pc` stays at 20 hex, or is 23 with ARITH_FAULT_PC_ADVANCE. -/
theorem test_mod_by_zero :
    result (withRegs (at_ 0x20 [0xA4, 0, 1]) [(0, 0x2A)]) [0] = some ([0x2A], 0x20, 0, .halted (.arithmeticFault 0x20)) ∧
    result (withRegs { at_ 0x20 [0xA4, 0, 1] with arithFaultPcAdvance := true } [(0, 0x2A)]) [0] =
      some ([0x2A], 0x23, 0, .halted (.arithmeticFault 0x20)) := by decide
/-- V-A18 -/
theorem test_and : result (withRegs (at_ 0 [0xA8, 0, 1]) [(0, 0xCC), (1, 0xAA)]) [0] = some ([0x88], 3, 0, .running) := by
  decide
/-- V-A19 -/
theorem test_or : result (withRegs (at_ 0 [0xAA, 0, 1]) [(0, 0xCC), (1, 0xAA)]) [0] = some ([0xEE], 3, 0, .running) := by
  decide
/-- V-A20, V-A21 -/
theorem test_xor : result (withRegs (at_ 0 [0xAB, 0, 1]) [(0, 0xCC), (1, 0xAA)]) [0] = some ([0x66], 3, 0, .running) ∧
    result (withRegs (at_ 0 [0xAB, 3, 3]) [(3, 0x5C)]) [3] = some ([0], 3, 0, .running) := by decide
/-- V-A22, V-A25: one operand, `pc + 2`. -/
theorem test_not : result (withRegs (at_ 0 [0x69, 1, 2]) [(1, 0x0F)]) [1] = some ([0xF0], 2, 0, .running) := by decide
/-- V-A26, V-A28, V-A29 -/
theorem test_shl : result (withRegs (at_ 0 [0xAC, 0, 1]) [(0, 0x81), (1, 1)]) [0] = some ([2], 3, 0, .running) ∧
    result (withRegs (at_ 0 [0xAC, 0, 1]) [(0, 1), (1, 8)]) [0] = some ([0], 3, 0, .running) ∧
    result (withRegs (at_ 0 [0xAC, 0, 1]) [(0, 0xFF), (1, 0xFF)]) [0] = some ([0], 3, 0, .running) := by decide
/-- V-A31, V-A33 -/
theorem test_shr : result (withRegs (at_ 0 [0xAD, 0, 1]) [(0, 0x81), (1, 1)]) [0] = some ([0x40], 3, 0, .running) ∧
    result (withRegs (at_ 0 [0xAD, 0, 1]) [(0, 0xFF), (1, 8)]) [0] = some ([0], 3, 0, .running) := by decide

/-! ## Stack, call and return (2.3) -/

/-- The byte at an address after one step. -/
def byteAfter (s : State) (a : Nat) : Option Byte := (after (step s)).map fun t => t.mem.read a

/-- V-S1, V-S4 -/
theorem test_push : result (withRegs (at_ 0x10 [0x45, 0]) [(0, 0x42)]) [7] = some ([0xF3], 0x12, 0, .running) ∧
    byteAfter (withRegs (at_ 0x10 [0x45, 0]) [(0, 0x42)]) 0xF3 = some 0x42 ∧
    byteAfter (at_ 0 [0x45, 7]) 0xF3 = some 0xF3 := by decide
/-- V-S2 -/
theorem test_push_at_zero : errorOf (withRegs (at_ 0x10 [0x45, 0]) [(7, 0)]) =
    some (.outOfBoundsError .stackPush (-1) 0x10) := by decide
/-- V-S5, V-S7, V-S9 -/
theorem test_pop :
    result (withRegs { at_ 0 [0x46, 1] with mem := [(0, 0x46), (1, 1), (0xF3, 0x42)] } [(7, 0xF3)]) [1, 7] =
      some ([0x42, 0xF4], 2, 0, .running) ∧
    result (withRegs { at_ 0 [0x46, 7] with mem := [(0, 0x46), (1, 7), (0xF3, 0x10)] } [(7, 0xF3)]) [7] =
      some ([0x11], 2, 0, .running) ∧
    result (withRegs { at_ 0 [0x46, 7] with mem := [(0, 0x46), (1, 7), (0xFF, 0x20)] } [(7, 0xFF)]) [7] =
      some ([0x21], 2, 0, .running) := by decide
/-- V-S6, V-S8 -/
theorem test_pop_past_top : errorOf (withRegs (at_ 0 [0x46, 1]) [(7, 0xFF), (1, 7)]) =
      some (.outOfBoundsError .stackPop 256 0) ∧
    errorOf (withRegs { at_ 0 [0x46, 7] with mem := [(0, 0x46), (1, 7), (0xF3, 0xFF)] } [(7, 0xF3)]) =
      some (.outOfBoundsError .stackPop 256 0) := by decide
/-- V-S11, V-S15, V-S16 -/
theorem test_call : result (withRegs (at_ 6 [0x50, 1]) [(1, 0x0B)]) [7] = some ([0xF3], 0x0B, 0, .running) ∧
    byteAfter (withRegs (at_ 6 [0x50, 1]) [(1, 0x0B)]) 0xF3 = some 8 ∧
    result (at_ 0x0A [0x50, 7]) [7] = some ([0xF3], 0xF3, 0, .running) ∧
    byteAfter (at_ 0xFD [0x50, 1]) 0xF3 = some 0xFF := by decide
/-- V-S12, V-S13, V-S14 -/
theorem test_call_errors : errorOf (withRegs (at_ 6 [0x50, 1]) [(7, 0)]) = some (.outOfBoundsError .callPush (-1) 6) ∧
    errorOf (at_ 0xFE [0x50, 1]) = some (.outOfBoundsError .returnAddress 256 0xFE) ∧
    errorOf (withRegs (at_ 0xFE [0x50, 1]) [(7, 0)]) = some (.outOfBoundsError .callPush (-1) 0xFE) := by decide
/-- V-S17, V-S18 -/
theorem test_ret : result (withRegs { at_ 0x0B [] with mem := [(0x0B, 0x11), (0xF3, 8)] } [(7, 0xF3)]) [7] =
      some ([0xF4], 8, 0, .running) ∧
    errorOf (withRegs (at_ 0x0B [0x11]) [(7, 0xFF)]) = some (.outOfBoundsError .retPop 256 0x0B) := by decide

/-! ## Compare and branch (2.4) -/

/-- V-B1, V-B2, V-B4, V-B7 -/
theorem test_cmp : result (withRegs (at_ 0 [0xA7, 0, 1]) [(0, 3), (1, 3)]) [] = some ([], 3, 0b001, .running) ∧
    result (withRegs (at_ 0 [0xA7, 0, 1]) [(0, 2), (1, 3)]) [] = some ([], 3, 0b100, .running) ∧
    result (withRegs (at_ 0 [0xA7, 0, 1]) [(0, 0x80), (1, 0x7F)]) [] = some ([], 3, 0b010, .running) ∧
    result ((withRegs (at_ 0 [0xA7, 0, 1]) [(0, 5), (1, 5)]).setFl ⟨false, true, false⟩) [] =
      some ([], 3, 0b001, .running) := by decide
/-- V-B9, V-B10 -/
theorem test_jmp : result (withRegs (at_ 0x19 [0x54, 4]) [(4, 0x0F)]) [] = some ([], 0x0F, 0, .running) ∧
    result (withRegs (at_ 0x19 [0x54, 4]) [(4, 0x19)]) [] = some ([], 0x19, 0, .running) := by decide
/-- V-B11, V-B12 -/
theorem test_jeq :
    result ((withRegs (at_ 0x12 [0x55, 3]) [(3, 0x1B)]).setFl ⟨true, false, false⟩) [] = some ([], 0x1B, 1, .running) ∧
    result ((withRegs (at_ 0x12 [0x55, 3]) [(3, 0x1B)]).setFl ⟨false, true, false⟩) [] = some ([], 0x14, 4, .running) := by
  decide
/-- V-B14, V-B17 -/
theorem test_jne :
    result ((withRegs (at_ 0x12 [0x56, 3]) [(3, 0x1B)]).setFl ⟨true, false, false⟩) [] = some ([], 0x14, 1, .running) ∧
    result (withRegs (at_ 0x12 [0x56, 3]) [(3, 0x1B)]) [] = some ([], 0x1B, 0, .running) := by decide

/-! ## Load immediate, output, halt (2.5) -/

/-- V-L1, V-L3, V-FD14 -/
theorem test_ldi : result (at_ 0 [0x82, 0, 8]) [0] = some ([8], 3, 0, .running) ∧
    result (at_ 0 [0x82, 7, 0]) [7] = some ([0], 3, 0, .running) ∧
    result (at_ 0 [0x82, 0, 0xFF]) [0] = some ([0xFF], 3, 0, .running) := by decide
/-- V-L5, V-L6 -/
theorem test_prn : (after (step (withRegs { at_ 3 [0x47, 0] with out := [8] } [(0, 8)]))).map (fun t => (t.out, t.pc)) =
    some ([8, 8], 5) := by decide
/-- V-L7, V-L8 -/
theorem test_hlt : result (at_ 5 [0x01]) [] = some ([], 6, 0, .halted .hlt) ∧
    result (at_ 0xFF [0x01]) [] = some ([], 256, 0, .halted .hlt) := by decide
/-- R100: a Halted core has no step. -/
theorem test_halted_has_no_step : step (State.reset.halt .hlt) = .fault .halted := rfl
/-- P5 of 95_test_vectors.md, its third step: PUSH overwrites the byte the next fetch reads. -/
theorem test_fetch_sees_push : byteAfter (withRegs (at_ 6 [0x45, 0, 0x00]) [(7, 9), (0, 1)]) 8 = some 0x01 := by decide
/-- R200, R210: the report of a halted core, with its code and its flags byte. -/
theorem test_report : ((State.reset.setFl ⟨false, true, false⟩).halt (.arithmeticFault 0)).report.map
    (fun r => (r.code, r.flags, r.pc)) = some (2, 0b100, 0) := by decide

/-! ## Witnesses: the hypotheses of each statement, met together -/

theorem witness_LaunchLeavesTheResetValuesAndTheImage :
    (List.replicate 256 (0 : Byte)).length ≤ 256 ∧ ¬ (List.replicate 257 (0 : Byte)).length ≤ 256 := by
  rw [List.length_replicate, List.length_replicate]; decide

theorem witness_StepRunsTheDecodedInstruction :
    (at_ 253 [0x82, 0, 8]).run = .running ∧
    decode opcodeMap (codeBytes (at_ 253 [0x82, 0, 8])) = .ok (.ldi 0 8, []) := ⟨rfl, rfl⟩

theorem witness_StepRunsTheStoredInstruction :
    opcodeMap.Legal ∧ (at_ 253 [0x82, 0, 8]).run = .running ∧ CodeAt opcodeMap (.ldi 0 8) (at_ 253 [0x82, 0, 8]) :=
  ⟨opcodeMap_legal, rfl, by unfold CodeAt; decide⟩

theorem witness_StepExistsExactlyWhileRunning :
    State.reset.run = .running ∧ (State.reset.halt .hlt).run = .halted .hlt := ⟨rfl, rfl⟩

theorem witness_FetchAt256IsOutOfBounds : (at_ 256 []).run = .running ∧ (at_ 256 []).pc = 256 := ⟨rfl, rfl⟩

theorem witness_UnknownOpcodeIsADecodeError : (at_ 255 [0xE0]).run = .running ∧ (at_ 255 [0xE0]).pc ≤ 255 ∧
    opcodeMap.lookup ((at_ 255 [0xE0]).mem.read (at_ 255 [0xE0]).pc) = none := by decide

theorem witness_OperandFetchPast255IsOutOfBounds :
    opcodeMap.Legal ∧
    ((at_ 255 [0x45]).run = .running ∧ (at_ 255 [0x45]).pc ≤ 255 ∧
      (at_ 255 [0x45]).mem.read (at_ 255 [0x45]).pc = opcodeMap .push ∧
      255 < (at_ 255 [0x45]).pc + Operation.push.format.operands) ∧
    ((at_ 254 [0xA0]).run = .running ∧ (at_ 254 [0xA0]).pc ≤ 255 ∧
      (at_ 254 [0xA0]).mem.read (at_ 254 [0xA0]).pc = opcodeMap .add ∧
      255 < (at_ 254 [0xA0]).pc + Operation.add.format.operands) :=
  ⟨opcodeMap_legal, by decide, by decide⟩

/-- The hypotheses of BadRegisterByteIsADecodeError for an ADD at 253, the last place it fits. -/
def addAt253 (b1 b2 : Byte) : Prop :=
  opcodeMap.Legal ∧ (at_ 253 [0xA0, b1, b2]).run = .running ∧
  (at_ 253 [0xA0, b1, b2]).pc + Operation.add.format.operands ≤ 255 ∧
  (at_ 253 [0xA0, b1, b2]).mem.read (at_ 253 [0xA0, b1, b2]).pc = opcodeMap .add

theorem witness_BadRegisterByteIsADecodeError :
    (addAt253 8 0 ∧ 7 < ((at_ 253 [0xA0, 8, 0]).mem.read 254).toNat) ∧
    (addAt253 7 8 ∧ ¬ 7 < ((at_ 253 [0xA0, 7, 8]).mem.read 254).toNat ∧
      7 < ((at_ 253 [0xA0, 7, 8]).mem.read 255).toNat) ∧
    (addAt253 7 7 ∧ ¬ 7 < ((at_ 253 [0xA0, 7, 7]).mem.read 254).toNat ∧
      ¬ 7 < ((at_ 253 [0xA0, 7, 7]).mem.read 255).toNat) :=
  ⟨⟨⟨opcodeMap_legal, by decide⟩, by decide⟩, ⟨⟨opcodeMap_legal, by decide⟩, by decide⟩,
    ⟨⟨opcodeMap_legal, by decide⟩, by decide⟩⟩

/-- A MOD by zero at 0 with ARITH_FAULT_PC_ADVANCE as given. -/
def modByZero (adv : Bool) : State := { at_ 0 [0xA4, 0, 1] with arithFaultPcAdvance := adv }

theorem witness_ErrorsArePrecise :
    ((modByZero true).run = .running ∧ stepWith opcodeMap (modByZero true) =
      .next { modByZero true with run := .halted (.arithmeticFault 0), pc := 3 }) ∧
    (stepWith opcodeMap (modByZero false) =
      .next { modByZero false with run := .halted (.arithmeticFault 0) }) ∧
    (stepWith opcodeMap State.reset = .next (State.reset.halt (.decodeError .unknownOpcode 0 0))) :=
  ⟨⟨rfl, eq_next (by decide)⟩, eq_next (by decide), eq_next (by decide)⟩

/-- The hypotheses of OutOfBoundsHasOnlyTheTablesCauses and DecodeErrorHasOnlyItsTwoCauses for one state and record. -/
def endsWith (s : State) (r : HaltReason) : Prop :=
  opcodeMap.Legal ∧ s.pc ≤ 256 ∧ s.run = .running ∧ stepWith opcodeMap s = .next (s.halt r) ∧
    (s.halt r).run = .halted r

theorem witness_OutOfBoundsHasOnlyTheTablesCauses :
    endsWith (at_ 256 []) (.outOfBoundsError .fetch 256 256) ∧
    endsWith (at_ 255 [0x45]) (.outOfBoundsError .operandFetch 256 255) ∧
    endsWith (withRegs (at_ 0 [0x45, 0]) [(7, 0)]) (.outOfBoundsError .stackPush (-1) 0) ∧
    endsWith (withRegs (at_ 0 [0x46, 1]) [(7, 0xFF)]) (.outOfBoundsError .stackPop 256 0) ∧
    endsWith (withRegs (at_ 0 [0x50, 1]) [(7, 0)]) (.outOfBoundsError .callPush (-1) 0) ∧
    endsWith (at_ 254 [0x50, 1]) (.outOfBoundsError .returnAddress 256 254) ∧
    endsWith (withRegs (at_ 0 [0x11]) [(7, 0xFF)]) (.outOfBoundsError .retPop 256 0) :=
  ⟨⟨opcodeMap_legal, by decide, rfl, eq_next (by decide), rfl⟩, ⟨opcodeMap_legal, by decide, rfl, eq_next (by decide), rfl⟩,
    ⟨opcodeMap_legal, by decide, rfl, eq_next (by decide), rfl⟩, ⟨opcodeMap_legal, by decide, rfl, eq_next (by decide), rfl⟩,
    ⟨opcodeMap_legal, by decide, rfl, eq_next (by decide), rfl⟩, ⟨opcodeMap_legal, by decide, rfl, eq_next (by decide), rfl⟩,
    ⟨opcodeMap_legal, by decide, rfl, eq_next (by decide), rfl⟩⟩

theorem witness_DecodeErrorHasOnlyItsTwoCauses :
    endsWith (at_ 255 [0x00]) (.decodeError .unknownOpcode 0 255) ∧
    endsWith (at_ 253 [0xA0, 7, 8]) (.decodeError .badRegister 8 253) :=
  ⟨⟨opcodeMap_legal, by decide, rfl, eq_next (by decide), rfl⟩, ⟨opcodeMap_legal, by decide, rfl, eq_next (by decide), rfl⟩⟩

theorem witness_RunsEndNormallyOnlyByHlt :
    ((at_ 255 [0x01]).run = .running ∧
      stepWith opcodeMap (at_ 255 [0x01]) = .next { at_ 255 [0x01] with run := .halted .hlt, pc := 256 } ∧
      fetchInstr opcodeMap (at_ 255 [0x01]) = .ok .hlt) ∧
    ((modByZero false).run = .running ∧ fetchInstr opcodeMap (modByZero false) = .ok (.mod 0 1) ∧
      ((modByZero false).reg 1).toNat = 0) :=
  ⟨⟨rfl, eq_next (by decide), rfl⟩, ⟨rfl, rfl, by decide⟩⟩

theorem witness_DecodeOfEncodeIsTheInstruction : opcodeMap.Legal := opcodeMap_legal

theorem witness_EncodeOfDecodeIsTheBytes :
    opcodeMap.Legal ∧ decode opcodeMap [0x82, 7, 0xFF, 0x01] = .ok (.ldi 7 0xFF, [0x01]) := ⟨opcodeMap_legal, rfl⟩

theorem witness_DecodeAcceptsExactlyTheWellFormed :
    opcodeMap.Legal ∧ wellFormed opcodeMap [0xA0, 7, 7] = true ∧ wellFormed opcodeMap [0xA0, 7, 8] = false :=
  ⟨opcodeMap_legal, by decide⟩

theorem witness_OperandCountIsTheTopTwoBits :
    opcodeMap.Legal ∧ (0xC0 : Byte).toNat / 64 = 3 ∧ opcodeMap (Instr.operation (.add 0 1)) = 0xA0 :=
  ⟨opcodeMap_legal, by decide⟩

theorem witness_ExactlyTwentyOpcodesAreRecognized : opcodeMap.Legal := opcodeMap_legal

theorem witness_ModGivesTheRemainder : ((withRegs State.reset [(1, 1)]).reg 1).toNat ≠ 0 := by decide

theorem witness_ModByZeroIsAnArithmeticFault : (State.reset.reg 1).toNat = 0 := by decide

/-- The amounts where the shifts' clauses meet: 7 and 8. -/
theorem witness_ShlShiftsLeftByTheWholeByte :
    8 ≤ ((withRegs State.reset [(1, 8)]).reg 1).toNat ∧ ¬ 8 ≤ ((withRegs State.reset [(1, 7)]).reg 1).toNat := by decide

theorem witness_ShrShiftsRightByTheWholeByte :
    8 ≤ ((withRegs State.reset [(1, 255)]).reg 1).toNat ∧ ¬ 8 ≤ ((withRegs State.reset [(1, 7)]).reg 1).toNat := by decide

theorem witness_PushStoresBelowTheStackPointer : (withRegs State.reset [(7, 1)]).sp.toNat ≠ 0 := by decide

theorem witness_PushAtZeroIsOutOfBounds : (withRegs State.reset [(7, 0)]).sp.toNat = 0 := by decide

/-- POP's condition at the boundary: a register and R7 itself. -/
theorem witness_PopLoadsFromTheStackPointer :
    (if (1 : Reg) = spReg then State.reset.mem.read 254 else (withRegs State.reset [(7, 254)]).sp).toNat ≠ 255 ∧
    (if (7 : Reg) = spReg then (at_ 0xF4 [254]).mem.read (at_ 0xF4 [254]).sp.toNat else 0).toNat ≠ 255 := by decide

theorem witness_PopPastTheTopIsOutOfBounds :
    (if (1 : Reg) = spReg then State.reset.mem.read 255 else (withRegs State.reset [(7, 255)]).sp).toNat = 255 ∧
    (if (7 : Reg) = spReg then (at_ 0xF4 [255]).mem.read (at_ 0xF4 [255]).sp.toNat else 0).toNat = 255 := by decide

theorem witness_CallStoresTheReturnAddressAndJumps :
    (withRegs (at_ 253 []) [(7, 1)]).sp.toNat ≠ 0 ∧ (withRegs (at_ 253 []) [(7, 1)]).pc + 2 ≤ 255 := by decide

theorem witness_CallChecksTheStackThenTheReturnAddress :
    (withRegs (at_ 254 []) [(7, 0)]).sp.toNat = 0 ∧
    ((at_ 254 []).sp.toNat ≠ 0 ∧ 255 < (at_ 254 []).pc + 2) ∧
    ((at_ 253 []).sp.toNat ≠ 0 ∧ ¬ 255 < (at_ 253 []).pc + 2) := by decide

theorem witness_RetJumpsToTheByteAtTheStackPointer : (withRegs State.reset [(7, 254)]).sp.toNat ≠ 255 := by decide

theorem witness_RetAtTheTopIsOutOfBounds : (withRegs State.reset [(7, 255)]).sp.toNat = 255 := by decide

theorem witness_PushThenPopIsTheIdentity : (withRegs State.reset [(7, 1)]).sp.toNat ≠ 0 := by decide

theorem witness_CallThenRetReturnsAfterTheCall :
    (withRegs (at_ 253 []) [(7, 1)]).sp.toNat ≠ 0 ∧ (withRegs (at_ 253 []) [(7, 1)]).pc + 2 ≤ 255 := by decide

/-- The hypothesis of JumpsGoToTheRegisterOrFallThrough for one instruction and outcome of its condition. -/
def jumpCase (i : Instr) (s : State) (taken : Bool) : Prop :=
  (i = .jmp 3 ∧ taken = true) ∨ (i = .jeq 3 ∧ taken = s.fl.e) ∨ (i = .jne 3 ∧ taken = !s.fl.e)

theorem witness_JumpsGoToTheRegisterOrFallThrough :
    jumpCase (.jmp 3) State.reset true ∧ jumpCase (.jeq 3) State.reset false ∧ jumpCase (.jne 3) State.reset true ∧
    jumpCase (.jeq 3) (State.reset.setFl ⟨true, false, false⟩) true ∧
    jumpCase (.jne 3) (State.reset.setFl ⟨true, false, false⟩) false := by unfold jumpCase; decide

theorem witness_FlagsAreWrittenByCmpAndReadByBranches :
    exec (.cmp 0 1) State.reset = .next { State.reset with fl := ⟨true, false, false⟩, pc := 3 } ∧
    exec (.jeq 0) State.reset = .next { State.reset with pc := 2 } ∧
    (⟨false, true, true⟩ : Flags).e = State.reset.fl.e ∧
    ∀ a, (.cmp 0 1 : Instr) ≠ .jeq a ∧ (.cmp 0 1 : Instr) ≠ .jne a :=
  ⟨eq_next (by decide), eq_next (by decide), rfl, by decide⟩

theorem witness_OutputIsWrittenByPrnAndReadByNothing :
    exec (.prn 7) State.reset = .next { State.reset with out := [0xF4], pc := 2 } := eq_next (by decide)

theorem witness_MemoryIsWrittenOnlyByPushAndCall :
    exec (.push 7) State.reset =
      .next { State.reset.setReg 7 0xF3 with mem := [(0xF3, 0xF3)], pc := 2 } := eq_next (by decide)

theorem witness_RegistersAreWrittenOnlyAsListed :
    exec (.ldi 1 5) State.reset = .next { State.reset.setReg 1 5 with pc := 3 } := eq_next (by decide)

theorem witness_PcAdvancesByTheLengthUnlessAssigned :
    (exec (.jmp 7) State.reset = .next { State.reset with pc := 0xF4 } ∧ assignsPc State.reset (.jmp 7) = true) ∧
    (exec (.jeq 7) State.reset = .next { State.reset with pc := 2 } ∧ assignsPc State.reset (.jeq 7) = false) ∧
    exec .hlt State.reset = .next { State.reset with run := .halted .hlt, pc := 1 } ∧ State.reset.run = .running :=
  ⟨⟨eq_next (by decide), rfl⟩, ⟨eq_next (by decide), rfl⟩, eq_next (by decide), rfl⟩

theorem witness_Pc256ComesOnlyFromTheAdvance :
    opcodeMap.Legal ∧ (at_ 253 [0xA0, 1, 2]).pc ≤ 255 ∧
    stepWith opcodeMap (at_ 253 [0xA0, 1, 2]) = .next { at_ 253 [0xA0, 1, 2] with pc := 256 } :=
  ⟨opcodeMap_legal, by decide, eq_next (by decide)⟩

theorem witness_NoStepChangesTheLaunchParameter :
    stepWith opcodeMap (modByZero true) = .next { modByZero true with run := .halted (.arithmeticFault 0), pc := 3 } :=
  eq_next (by decide)

theorem witness_EveryStepKeepsTheInvariant :
    (at_ 255 [0x01]).Inv ∧ step (at_ 255 [0x01]) = .next { at_ 255 [0x01] with run := .halted .hlt, pc := 256 } :=
  ⟨⟨by decide, by decide, by unfold Flags.AtMostOne; decide, trivial⟩, eq_next (by decide)⟩

theorem witness_EveryRunKeepsTheInvariant : opcodeMap.Legal ∧ ∃ s, launch defaultLaunch [0x01] = some s :=
  ⟨opcodeMap_legal, _, by rw [launch_eq]; exact if_pos (by decide)⟩

theorem witness_EveryAccessIsBoundsChecked :
    ((0 : Int) ≤ 0 ∧ (0 : Int) ≤ 255) ∧ ((0 : Int) ≤ 255 ∧ (255 : Int) ≤ 255) ∧
    ¬ ((0 : Int) ≤ -1 ∧ (-1 : Int) ≤ 255) ∧ ¬ ((0 : Int) ≤ 256 ∧ (256 : Int) ≤ 255) := by decide

theorem witness_ReadReturnsTheLastWrite :
    State.reset.memWrite .stackPush 255 7 = .ok { State.reset with mem := [(255, 7)] } ∧
    State.reset.memWrite .stackPush 0 7 = .ok { State.reset with mem := [(0, 7)] } := ⟨rfl, rfl⟩

/-- PUSH and CALL at `sp` 1, the lowest they can use, store to address 0, which `State.reset` then fetches. -/
theorem witness_FetchSeesWhatPushAndCallStore :
    (withRegs State.reset [(7, 1)]).sp.toNat ≠ 0 ∧ (withRegs State.reset [(7, 1)]).run = .running ∧
    State.reset.pc + 0 = (withRegs State.reset [(7, 1)]).sp.toNat - 1 ∧
    exec (.push 1) (withRegs State.reset [(7, 1), (1, 0x11)]) =
      .next { withRegs State.reset [(7, 0), (1, 0x11)] with mem := [(0, 0x11)], pc := 2 } ∧
    exec (.call 1) (withRegs State.reset [(7, 1)]) =
      .next { withRegs State.reset [(7, 0)] with mem := [(0, 2)], pc := 0 } :=
  ⟨by decide, rfl, by decide, eq_next (by decide), eq_next (by decide)⟩

theorem witness_CanonicalMemoriesThatReadAlikeAreEqual :
    Memory.wf [(0, 1), (255, 2)] ∧ ∀ a < 256, Memory.read [(0, 1), (255, 2)] a = Memory.read [(0, 1), (255, 2)] a :=
  ⟨by decide, fun _ _ => rfl⟩

theorem witness_ReportShowsTheHaltedState :
    State.reset.run = .running ∧ (State.reset.halt (.arithmeticFault 0)).run = .halted (.arithmeticFault 0) :=
  ⟨rfl, rfl⟩

/-- A block whose image, one HLT, is loaded, in the phase and with the steps given. -/
def hltBlock (phase : Phase) (ceiling : Option Nat) (taken : Nat) : Block :=
  { core := at_ 0 [0x01], phase := phase, ceiling := ceiling, taken := taken }

/-- A second image is turned away, and so is a step before any. -/
theorem test_block_load_order :
    (hltBlock .loaded none 0).act (.load []) = .error .alreadyLoaded ∧
    (Block.reset defaultLaunch).act .step = .error .notLoaded := ⟨rfl, rfl⟩

/-- A core that halts on its ceiling's last step is Halted and not stopped (70_reset_and_hazards.md R237). -/
theorem test_block_halts_at_ceiling :
    ((hltBlock .loaded (some 1) 0).act .step).bind (fun b => b.act .step) = .error .coreHalted := rfl

theorem witness_HostCannotChangeARunningCore :
    (∃ b', (hltBlock .started none 1).act (.reset defaultLaunch) = .ok b') ∧
    (∃ b', (hltBlock .awaitingImage none 0).act (.load [0x01]) = .ok b') ∧
    (∃ b', (hltBlock .awaitingImage none 0).act .loadError = .ok b') ∧
    (∃ b', (hltBlock .loaded none 0).act (.setCeiling 2) = .ok b') ∧
    (∃ b', (hltBlock .loaded none 0).act .step = .ok b') :=
  ⟨⟨_, rfl⟩, ⟨_, rfl⟩, ⟨_, rfl⟩, ⟨_, rfl⟩, ⟨_, rfl⟩⟩

/-- Below the ceiling, at it, and at it with the core Halted. -/
theorem witness_CeilingStopsTheRunOnAStepBoundary :
    ((hltBlock .loaded (some 1) 0).ceiling = some 1 ∧ (hltBlock .loaded (some 1) 0).taken < 1 ∧
      (hltBlock .loaded (some 1) 0).core.run = .running ∧ (hltBlock .loaded (some 1) 0).phase = .loaded) ∧
    ((hltBlock .started (some 1) 1).phase = .started ∧ 1 ≤ (hltBlock .started (some 1) 1).taken ∧
      (hltBlock .started (some 1) 1).core.run = .running) ∧
    ({ hltBlock .started (some 1) 1 with core := State.reset.halt .hlt } : Block).core.run ≠ .running := by decide

theorem witness_CoreNeverStartsAfterALoadError :
    (Block.reset defaultLaunch).phase = .awaitingImage ∧ ∀ p, (HostAction.load [] : HostAction) ≠ .reset p :=
  ⟨rfl, fun _ h => by cases h⟩

theorem witness_EveryHostActionKeepsTheBlockInOneRun :
    (Block.reset defaultLaunch).Inv ∧ ∃ b', (Block.reset defaultLaunch).act (.load [0x01]) = .ok b' :=
  ⟨⟨⟨defaultLaunch, rfl, rfl⟩, fun _ h => by cases h⟩, _, rfl⟩

end Sys2Proof.Tests
end

section
/-! SUPPORT. What an instruction's effect and an error's state do to each part of the state: one frame rule per part
(10_state.md R21, R25, R29, R34). -/

namespace Sys2Proof.Machine

variable (s : State)

/-! ## The state an error leaves (60_exceptions.md R204, R205) -/

/-- An error changes the run state, and `pc` alone beside it. -/
theorem errorState_eq (r : HaltReason) : errorState s r = { s with
    run := .halted r
    pc := if s.arithFaultPcAdvance = true ∧ r = .arithmeticFault s.pc then s.pc + 3 else s.pc } := by
  unfold errorState
  by_cases h : s.arithFaultPcAdvance = true ∧ r = .arithmeticFault s.pc
  · rw [if_pos h, if_pos h]; rfl
  · rw [if_neg h, if_neg h]; rfl

@[simp] theorem errorState_fl (r : HaltReason) : (errorState s r).fl = s.fl := by rw [errorState_eq]

@[simp] theorem errorState_out (r : HaltReason) : (errorState s r).out = s.out := by rw [errorState_eq]

@[simp] theorem reg_errorState (r : HaltReason) (q : Reg) : (errorState s r).reg q = s.reg q := by
  rw [errorState_eq]; rfl

/-- An error leaves `pc`, or passes a MOD that divided by zero (60_exceptions.md R203). -/
theorem errorState_pc_cases (r : HaltReason) :
    (errorState s r).pc = s.pc ∨ (r = .arithmeticFault s.pc ∧ (errorState s r).pc = s.pc + 3) := by
  rw [errorState_eq]
  by_cases h : s.arithFaultPcAdvance = true ∧ r = .arithmeticFault s.pc
  · exact .inr ⟨h.2, if_pos h⟩
  · exact .inl (if_neg h)

/-- MOD alone raises the arithmetic fault (R203). -/
theorem eq_mod_of_arithmeticFault {s : State} {i : Instr} {p : Nat} (h : execError s i = some (.arithmeticFault p)) :
    ∃ a b, i = .mod a b := by
  rcases execError_cases s h with ⟨a, b, hi, -⟩ | ⟨_, _, _, hr⟩ | ⟨_, _, _, hr⟩ | ⟨_, _, _, hr⟩ | ⟨_, _, _, _, hr⟩ |
    ⟨_, _, hr⟩
  · exact ⟨a, b, hi⟩
  all_goals cases hr

/-! ## The flags (10_state.md R29, 43_compare_branch.md R170) -/

/-- A comparison sets exactly one flag: the three orders of two bytes exclude each other. -/
theorem compareFlags_sum (x y : Byte) :
    (compareFlags x y).e.toNat + (compareFlags x y).l.toNat + (compareFlags x y).g.toNat = 1 := by
  rcases Nat.lt_trichotomy x.toNat y.toNat with h | h | h
  · simp [compareFlags, h, beq_eq_false_iff_ne.mpr h.ne, h.asymm]
  · simp [compareFlags, h]
  · simp [compareFlags, h, beq_eq_false_iff_ne.mpr h.ne', h.asymm]

theorem jumpIf_fl (c : Bool) (a : Reg) : (jumpIf c a s).fl = s.fl := by cases c <;> rfl

theorem effect_fl {i : Instr} (hi : ¬ ∃ a b, i = .cmp a b) : (effect s i).fl = s.fl := by
  cases i with
  | cmp a b => exact absurd ⟨a, b, rfl⟩ hi
  | jeq a => exact jumpIf_fl s _ a
  | jne a => exact jumpIf_fl s _ a
  | _ => rfl

theorem execError_setFl (f : Flags) (i : Instr) : execError (s.setFl f) i = execError s i := by cases i <;> rfl

theorem errorState_setFl (f : Flags) (r : HaltReason) :
    errorState (s.setFl f) r = (errorState s r).setFl f := by
  rw [errorState_eq, errorState_eq]; rfl

theorem jumpIf_setFl (c : Bool) (f : Flags) (a : Reg) : jumpIf c a (s.setFl f) = (jumpIf c a s).setFl f := by
  cases c <;> rfl

/-- Other flags, with the same E for JEQ and JNE, are carried through by every instruction but CMP. -/
theorem effect_setFl {f : Flags} {i : Instr} (hf : f.e = s.fl.e ∨ ∀ a, i ≠ .jeq a ∧ i ≠ .jne a)
    (hi : ¬ ∃ a b, i = .cmp a b) : effect (s.setFl f) i = (effect s i).setFl f := by
  cases i with
  | cmp a b => exact absurd ⟨a, b, rfl⟩ hi
  | jeq a =>
    have he : f.e = s.fl.e := hf.resolve_right fun h => (h a).1 rfl
    simp only [effect, State.setFl_fl, he, jumpIf_setFl]
  | jne a =>
    have he : f.e = s.fl.e := hf.resolve_right fun h => (h a).2 rfl
    simp only [effect, State.setFl_fl, he, jumpIf_setFl]
  | _ => rfl

/-- CMP's next state does not depend on the flags before it. -/
theorem exec_cmp_setFl (f : Flags) (a b : Reg) : exec (.cmp a b) (s.setFl f) = exec (.cmp a b) s := rfl

/-- Every instruction but CMP runs alike under other flags, up to the flags it carries through. -/
theorem exec_setFl {s t : State} {f : Flags} {i : Instr} (h : exec i s = .next t)
    (hf : f.e = s.fl.e ∨ ∀ a, i ≠ .jeq a ∧ i ≠ .jne a) (hi : ¬ ∃ a b, i = .cmp a b) :
    exec i (s.setFl f) = .next (t.setFl f) := by
  rw [exec_eq, execError_setFl]
  rcases exec_cases h with ⟨he, rfl⟩ | ⟨r, he, rfl⟩
  · rw [he]; exact congrArg _ (effect_setFl s hf hi)
  · rw [he]; exact congrArg _ (errorState_setFl s f r)

/-- What an instruction leaves in the flags: what they held, or CMP's comparison. -/
theorem exec_fl {s t : State} {i : Instr} (h : exec i s = .next t) :
    t.fl = s.fl ∨ ∃ a b, i = .cmp a b ∧ t.fl = compareFlags (s.reg a) (s.reg b) := by
  rcases exec_cases h with ⟨-, rfl⟩ | ⟨r, -, rfl⟩
  · by_cases hi : ∃ a b, i = .cmp a b
    · obtain ⟨a, b, rfl⟩ := hi
      exact .inr ⟨a, b, rfl, rfl⟩
    · exact .inl (effect_fl s hi)
  · exact .inl (errorState_fl s r)

/-! ## The output sink (10_state.md R34) -/

/-- The state with another output sink. -/
def State.setOut (s : State) (o : List Byte) : State := { s with out := o }

theorem execError_emits {s : State} {i : Instr} {r : HaltReason} (h : execError s i = some r) : emits s i = [] := by
  cases i with
  | prn a => cases h
  | _ => rfl

theorem jumpIf_out (c : Bool) (a : Reg) : (jumpIf c a s).out = s.out := by cases c <;> rfl

theorem effect_out (i : Instr) : (effect s i).out = s.out ++ emits s i := by
  cases i with
  | prn a => rfl
  | jeq a => simp only [effect, emits, jumpIf_out, List.append_nil]
  | jne a => simp only [effect, emits, jumpIf_out, List.append_nil]
  | _ => exact (List.append_nil _).symm

theorem execError_setOut (o : List Byte) (i : Instr) : execError (s.setOut o) i = execError s i := by cases i <;> rfl

theorem errorState_setOut (o : List Byte) (r : HaltReason) :
    errorState (s.setOut o) r = (errorState s r).setOut o := by
  rw [errorState_eq, errorState_eq]; rfl

theorem jumpIf_setOut (c : Bool) (o : List Byte) (a : Reg) : jumpIf c a (s.setOut o) = (jumpIf c a s).setOut o := by
  cases c <;> rfl

theorem effect_setOut (o : List Byte) (i : Instr) :
    effect (s.setOut o) i = (effect s i).setOut (o ++ emits s i) := by
  cases i with
  | prn a => rfl
  | jeq a => exact (jumpIf_setOut s _ o a).trans (congrArg _ (List.append_nil o).symm)
  | jne a => exact (jumpIf_setOut s _ o a).trans (congrArg _ (List.append_nil o).symm)
  | _ =>
    show _ = State.setOut _ (o ++ [])
    rw [List.append_nil]; rfl

/-- The output sink after an instruction: grown by what it emits. -/
theorem exec_out {s t : State} {i : Instr} (h : exec i s = .next t) : t.out = s.out ++ emits s i := by
  rcases exec_cases h with ⟨-, rfl⟩ | ⟨r, he, rfl⟩
  · exact effect_out s i
  · rw [errorState_out, execError_emits he, List.append_nil]

/-- Every instruction runs alike with another output sink, which grows alike. -/
theorem exec_setOut {s t : State} {i : Instr} (h : exec i s = .next t) (o : List Byte) :
    exec i (s.setOut o) = .next (t.setOut (o ++ emits s i)) := by
  rw [exec_eq, execError_setOut]
  rcases exec_cases h with ⟨he, rfl⟩ | ⟨r, he, rfl⟩
  · rw [he]; exact congrArg _ (effect_setOut s o i)
  · rw [he, execError_emits he, List.append_nil]; exact congrArg _ (errorState_setOut s o r)

/-! ## The registers (10_state.md R21) -/

theorem jumpIf_reg (c : Bool) (a r : Reg) : (jumpIf c a s).reg r = s.reg r := by cases c <;> rfl

/-- An effect leaves every register but the instruction's destinations. -/
theorem effect_reg {i : Instr} {r : Reg} (hr : r ∉ destinations i) : (effect s i).reg r = s.reg r := by
  cases i with
  | hlt | prn | jmp | cmp => rfl
  | jeq a => exact jumpIf_reg s _ a r
  | jne a => exact jumpIf_reg s _ a r
  | ret | push | call => exact s.reg_setReg_ne _ (mt List.mem_singleton.mpr hr)
  | pop a =>
    obtain ⟨ha, hsp⟩ : r ≠ a ∧ r ≠ spReg := by simpa [destinations] using hr
    exact ((popLoaded a s).reg_setReg_ne _ hsp).trans (s.reg_setReg_ne _ ha)
  | _ => exact s.reg_setReg_ne _ (mt List.mem_singleton.mpr hr)

/-! ## The program counter (10_state.md R25, 40_fetch_decode_execute.md R105) -/

theorem jumpIf_pc (c : Bool) (a : Reg) : (jumpIf c a s).pc = if c then (s.reg a).toNat else s.pc + 2 := by
  cases c <;> rfl

/-- An effect passes the instruction's own bytes, unless it assigns `pc`, and then a byte. -/
theorem effect_pc (i : Instr) :
    if assignsPc s i then (effect s i).pc ≤ 255 else (effect s i).pc = s.pc + i.length := by
  cases i with
  | ret => exact byte_le _
  | call a => exact byte_le _
  | jmp a => exact byte_le _
  | jeq a =>
    cases he : s.fl.e <;> simp only [assignsPc, effect, he, jumpIf_pc]
    · rfl
    · exact byte_le _
  | jne a =>
    cases he : s.fl.e <;> simp only [assignsPc, effect, he, jumpIf_pc]
    · exact byte_le _
    · rfl
  | _ => rfl

/-- An instruction that leaves `pc` at 256 from below ended at address 255. -/
theorem exec_pc_256 {s t : State} {i : Instr} (h : exec i s = .next t) (hpc : s.pc ≤ 255) (ht : t.pc = 256) :
    s.pc + i.length = 256 := by
  rcases exec_cases h with ⟨-, rfl⟩ | ⟨r, he, rfl⟩
  · have heff := effect_pc s i
    split at heff <;> omega
  · rcases errorState_pc_cases s r with hs | ⟨rfl, hs⟩
    · omega
    · obtain ⟨a, b, rfl⟩ := eq_mod_of_arithmeticFault he
      exact hs.symm.trans ht

/-- The byte at `pc` of a fetched instruction is its operation's opcode (40_fetch_decode_execute.md R101, R102). -/
theorem read_pc_of_fetchInstr {m : OpcodeMap} (hm : m.Legal) {s : State} {i : Instr} (h : fetchInstr m s = .ok i) :
    s.mem.read s.pc = m i.operation :=
  (State.readCode_ok_iff.mp ((fetchInstr_ok_iff hm).mp h).1).2

end Sys2Proof.Machine
end

section
/-! SUPPORT. What launch, the report and the ceiling answer (10_state.md R37, R43, R45). -/

namespace Sys2Proof.Machine

theorem resetWith_sp (p : LaunchParams) : (State.resetWith p).sp = spReset := by
  rw [State.sp_eq, resetWith_reg, dif_neg (by decide)]

theorem resetWith_reg_castSucc (p : LaunchParams) (r : Fin 7) : (State.resetWith p).reg r.castSucc = p.regInit r := by
  rw [resetWith_reg, dif_pos (by simp)]; rfl

/-- Memory after reset and load: the image from address 0, `mem_init` past it. -/
theorem launched_mem_read (p : LaunchParams) (image : List Byte) (a : Fin 256) :
    ((State.resetWith p).mem.writeFrom 0 image).read a =
      if h : a.val < image.length then image[a.val] else p.memInit a := by
  rw [Memory.read_writeFrom]
  by_cases h : a.val < image.length
  · rw [dif_pos ⟨Nat.zero_le _, h, a.isLt⟩, dif_pos h]; rfl
  · rw [dif_neg (fun hc => h hc.2.1), dif_neg h, resetWith_mem_read, dif_pos a.isLt]

/-- The flags byte as a number: L at bit 2, G at bit 1, E at bit 0 (10_state.md R28). -/
theorem Flags.toByte_toNat (f : Flags) : f.toByte.toNat = 4 * f.l.toNat + 2 * f.g.toNat + f.e.toNat := by
  obtain ⟨e, l, g⟩ := f
  revert e l g
  decide

/-- The load port takes an image of at most 256 bytes, and changes memory only. -/
theorem State.loadImage_eq_some {s t : State} {image : List Byte} (h : s.loadImage image = some t) :
    image.length ≤ 256 ∧ t = s.setMem (s.mem.writeFrom 0 image) := by
  unfold State.loadImage at h
  split at h
  · next hl => exact ⟨hl, (Option.some.inj h).symm⟩
  · cases h

theorem Block.atCeiling_eq {b : Block} {n : Nat} (h : b.ceiling = some n) : b.atCeiling = decide (n ≤ b.taken) := by
  rw [Block.atCeiling, h]; rfl

end Sys2Proof.Machine
end

section
/-! PROOFS. The statements of 10_state.md's family. -/

namespace Sys2Proof.Machine

/-- Settles O1: the launched state is the reset state with the image written over its memory. -/
theorem launchLeavesTheResetValuesAndTheImage : Obligations.LaunchLeavesTheResetValuesAndTheImage := by
  intro p image
  split
  · next h =>
    have hl := (launch_eq p image).trans (if_pos h)
    refine ⟨_, hl, rfl, ?_, rfl, rfl, rfl, rfl, rfl, fun r => ?_, launched_mem_read p image, rfl⟩
    · rw [State.sp_setMem, resetWith_sp]; rfl
    · rw [State.reg_setMem, resetWith_reg_castSucc]
  · next h => exact (launch_eq p image).trans (if_neg h)

/-- Settles O43: the flags after an instruction, and the run under other flags, by the rules above. -/
theorem flagsAreWrittenByCmpAndReadByBranches : Obligations.FlagsAreWrittenByCmpAndReadByBranches := by
  intro i s t h
  refine ⟨?_, fun f hf => ?_⟩
  · rcases exec_fl h with hfl | ⟨a, b, hi, hfl⟩
    · exact .inl hfl
    · exact .inr ⟨a, b, hi, hfl ▸ compareFlags_sum _ _⟩
  · split
    · next hi =>
      obtain ⟨a, b, rfl⟩ := hi
      exact (exec_cmp_setFl s f a b).trans h
    · next hi => exact exec_setFl h hf hi

/-- Settles O44: the sink after an instruction, and the run with another sink, by the rules above. -/
theorem outputIsWrittenByPrnAndReadByNothing : Obligations.OutputIsWrittenByPrnAndReadByNothing :=
  ⟨resetWith_out, fun _ _ _ h => ⟨exec_out h, exec_setOut h⟩⟩

/-- Settles O46: an effect writes its destinations only, and an error writes no register. -/
theorem registersAreWrittenOnlyAsListed : Obligations.RegistersAreWrittenOnlyAsListed := by
  intro i s t h r hr
  rcases exec_cases h with ⟨-, rfl⟩ | ⟨e, -, rfl⟩
  · exact effect_reg s hr
  · exact reg_errorState s e r

/-- Settles O48: a fetch error leaves `pc`, and an instruction reaches 256 only past its own last byte. -/
theorem pc256ComesOnlyFromTheAdvance : Obligations.Pc256ComesOnlyFromTheAdvance := by
  intro m s t hm hpc h ht
  rcases stepWith_cases h with ⟨-, ⟨r, -, rfl⟩ | ⟨i, hf, he⟩⟩
  · rw [State.halt_pc] at ht; omega
  · have hlen := exec_pc_256 he hpc ht
    exact ⟨i.operation, read_pc_of_fetchInstr hm hf, (Nat.add_assoc ..).trans hlen⟩

/-- Settles O5: the step of a Running core and of a Halted one (Laws/Block.lean). -/
theorem stepExistsExactlyWhileRunning : Obligations.StepExistsExactlyWhileRunning :=
  fun _ _ => ⟨step_of_running, fun _ => step_of_halted⟩

/-- Settles O56: the report's fields, by the run state; the code by the reason's constructor. -/
theorem reportShowsTheHaltedState : Obligations.ReportShowsTheHaltedState := by
  intro s
  refine ⟨fun hr => ?_, fun r hr => ?_⟩
  · simp [State.report, statusCode, hr]
  · rw [State.report, hr]
    refine ⟨_, rfl, rfl, rfl, rfl, rfl, s.fl.toByte_toNat, fun a ha => ?_, by simp [memSize], ?_⟩
    · simp [memSize, ha]
    · cases r <;> rfl

/-- Settles O57: by the host action, each by what it can answer (Laws/Block.lean). -/
theorem hostCannotChangeARunningCore : Obligations.HostCannotChangeARunningCore := by
  intro b b' act h
  cases act with
  | reset p =>
    obtain rfl : Block.reset p = b' := Except.ok.inj h
    exact ⟨rfl, rfl, rfl, rfl⟩
  | load image =>
    obtain ⟨hp, t, hl, rfl⟩ := Block.load_cases h
    obtain ⟨hlen, rfl⟩ := State.loadImage_eq_some hl
    exact ⟨hp, rfl, hlen, rfl⟩
  | loadError =>
    obtain ⟨hp, rfl⟩ := Block.failLoad_cases h
    exact ⟨hp, rfl, rfl⟩
  | setCeiling n =>
    obtain ⟨hp, rfl⟩ := Block.setCeiling_cases h
    exact ⟨hp, rfl, rfl⟩
  | step =>
    obtain ⟨hp, hrun⟩ := Block.act_step_cases h
    obtain ⟨-, t, ht, rfl⟩ := Block.run_cases hrun
    exact ⟨hp, ht, rfl⟩

/-- Settles O58: the three answers of a step, Halted, at the ceiling and below it, exclude each other. -/
theorem ceilingStopsTheRunOnAStepBoundary : Obligations.CeilingStopsTheRunOnAStepBoundary := by
  intro b n hn hp
  rw [Block.act_step_of_loaded hp]
  rcases b.run_eq with ⟨r, hr, hb⟩ | ⟨hr, hc, hb⟩ | ⟨hr, hc, t, -, hb⟩
  · simp [hb, hr]
  · have hle : n ≤ b.taken := by simpa [Block.atCeiling_eq hn] using hc
    simp [hb, hr, hle]
  · have hlt : b.taken < n := by simpa [Block.atCeiling_eq hn] using hc
    simp [hb, hr, hlt, hn]

end Sys2Proof.Machine
end

section
/-! SUPPORT. Checked memory access at any integer address (20_memory.md R51, R53), and the memory each instruction leaves
(R52, 42_stack_control.md R152, R154). -/

namespace Sys2Proof.Machine

variable (s : State)

/-! ## Checked accesses -/

/-- Everything the address check can answer. -/
theorem State.checkAddress_eq (kind : AccessKind) (a : Int) :
    s.checkAddress kind a = if 0 ≤ a ∧ a ≤ 255 then .ok a.toNat else .error (.outOfBoundsError kind a s.pc) := by
  by_cases h : 0 ≤ a ∧ a ≤ 255
  · rw [if_pos h, State.checkAddress, if_neg (by omega)]
  · rw [if_neg h, s.checkAddress_out kind (by omega)]

/-- Everything a checked read can answer. -/
theorem State.memRead_eq (kind : AccessKind) (a : Int) :
    s.memRead kind a = if 0 ≤ a ∧ a ≤ 255 then .ok (s.mem.read a.toNat)
      else .error (.outOfBoundsError kind a s.pc) := by
  rw [State.memRead, State.checkAddress_eq]
  split <;> rfl

/-- Everything a checked write can answer. -/
theorem State.memWrite_eq (kind : AccessKind) (a : Int) (v : Byte) :
    s.memWrite kind a v = if 0 ≤ a ∧ a ≤ 255 then .ok (s.setMem (s.mem.write a.toNat v))
      else .error (.outOfBoundsError kind a s.pc) := by
  rw [State.memWrite, State.checkAddress_eq]
  split <;> rfl

/-- A write that succeeds is inside memory, and changes memory alone. -/
theorem State.memWrite_ok {s t : State} {kind : AccessKind} {a : Int} {v : Byte} (h : s.memWrite kind a v = .ok t) :
    (0 ≤ a ∧ a ≤ 255) ∧ t = s.setMem (s.mem.write a.toNat v) := by
  rw [State.memWrite_eq] at h
  split at h
  · next ha => exact ⟨ha, (Except.ok.inj h).symm⟩
  · cases h

/-- A checked read after a write inside memory: the written byte there, and elsewhere the answer before it. -/
theorem State.memRead_setMem_write (kind : AccessKind) {a : Int} (ha : 0 ≤ a ∧ a ≤ 255) (b : Int) (v : Byte) :
    (s.setMem (s.mem.write a.toNat v)).memRead kind b = if b = a then .ok v else s.memRead kind b := by
  rw [State.memRead_eq, State.memRead_eq]
  by_cases hba : b = a
  · subst hba
    rw [if_pos ha, if_pos rfl, State.setMem_mem, Memory.read_write_same]
  · rw [if_neg hba]
    by_cases hb : 0 ≤ b ∧ b ≤ 255
    · have hne : b.toNat ≠ a.toNat := by omega
      rw [if_pos hb, if_pos hb, State.setMem_mem, Memory.read_write_ne _ _ hne]
    · rw [if_neg hb, if_neg hb, State.setMem_pc]

/-! ## The memory an instruction leaves -/

/-- The address below a stack pointer is itself a byte. -/
theorem narrow_pred_toNat (v : Byte) : (narrow (v.toNat - 1)).toNat = v.toNat - 1 := by
  have := byte_le v
  rw [narrow_toNat]
  omega

/-- PUSH stores the register as it is after the decrement of `sp`, and so as PUSH leaves it (R152). -/
theorem pushed_mem (a : Reg) : (pushed a s).mem = s.mem.write (s.sp.toNat - 1) ((pushed a s).reg a) :=
  congrArg (s.mem.write · ((pushed a s).reg a)) (narrow_pred_toNat s.sp)

/-- CALL stores its return address (R154). -/
theorem called_mem (a : Reg) : (called a s).mem = s.mem.write (s.sp.toNat - 1) (narrow (s.pc + 2)) :=
  congrArg (s.mem.write · (narrow (s.pc + 2))) (narrow_pred_toNat s.sp)

theorem jumpIf_mem (c : Bool) (a : Reg) : (jumpIf c a s).mem = s.mem := by cases c <;> rfl

@[simp] theorem errorState_mem (r : HaltReason) : (errorState s r).mem = s.mem := by rw [errorState_eq]

@[simp] theorem errorState_run (r : HaltReason) : (errorState s r).run = .halted r := by rw [errorState_eq]

/-- An effect leaves every byte but the one the instruction stores. -/
theorem effect_mem_read {i : Instr} {b : Nat} (hb : b ∉ storesTo s i) :
    (effect s i).mem.read b = s.mem.read b := by
  cases i with
  | push a =>
    rw [effect, pushed_mem]
    exact Memory.read_write_ne _ _ (mt List.mem_singleton.mpr hb)
  | call a =>
    rw [effect, called_mem]
    exact Memory.read_write_ne _ _ (mt List.mem_singleton.mpr hb)
  | jeq a => exact congrArg (·.read b) (jumpIf_mem s _ a)
  | jne a => exact congrArg (·.read b) (jumpIf_mem s _ a)
  | _ => rfl

/-- An instruction after which the core still runs raised no error. -/
theorem eq_effect_of_running {s t : State} {i : Instr} (h : exec i s = .next t) (hr : t.run = .running) :
    t = effect s i := by
  rcases exec_cases h with ⟨-, ht⟩ | ⟨r, -, rfl⟩
  · exact ht
  · rw [errorState_run] at hr; cases hr

/-- A code fetch reads the byte written at its address. -/
theorem readCode_of_mem_write {u : State} {m : Memory} {a k : Nat} {v : Byte} (hu : u.mem = m.write a v)
    (hk : u.pc + k = a) (ha : a ≤ 255) : u.readCode k = .ok v :=
  State.readCode_ok_iff.mpr ⟨hk ▸ ha, by rw [hu, hk, Memory.read_write_same]⟩

end Sys2Proof.Machine
end

section
/-! PROOFS. The statements of 20_memory.md's family. -/

namespace Sys2Proof.Machine

/-- Settles O45: an effect stores at `storesTo` only, and an error writes no memory. -/
theorem memoryIsWrittenOnlyByPushAndCall : Obligations.MemoryIsWrittenOnlyByPushAndCall := by
  intro i s t h b hb
  rcases exec_cases h with ⟨-, rfl⟩ | ⟨r, -, rfl⟩
  · exact effect_mem_read s hb
  · rw [errorState_mem]

/-- Settles O53: a successful write is inside memory, where a read after it is decided by the address. -/
theorem readReturnsTheLastWrite : Obligations.ReadReturnsTheLastWrite := by
  intro s t kind kind' a b v h
  obtain ⟨ha, rfl⟩ := State.memWrite_ok h
  exact ⟨s.memRead_setMem_write kind' ha b v, rfl⟩

/-- Settles O54: still Running, PUSH and CALL had their effect, which wrote the byte the fetch reads. -/
theorem fetchSeesWhatPushAndCallStore : Obligations.FetchSeesWhatPushAndCallStore := by
  intro a s t u k _ ht _ hu hk
  have hle : s.sp.toNat - 1 ≤ 255 := (Nat.sub_le _ _).trans (byte_le s.sp)
  refine ⟨fun h => ?_, fun h => ?_⟩
  · obtain rfl := eq_effect_of_running h ht
    exact readCode_of_mem_write (hu.trans (pushed_mem s a)) hk hle
  · obtain rfl := eq_effect_of_running h ht
    exact readCode_of_mem_write (hu.trans (called_mem s a)) hk hle

/-- Settles O52: both accesses pass the same check, inside and outside memory. -/
theorem everyAccessIsBoundsChecked : Obligations.EveryAccessIsBoundsChecked := by
  intro s kind a v
  rw [State.memRead_eq, State.memWrite_eq]
  by_cases ha : 0 ≤ a ∧ a ≤ 255
  · simp only [if_pos ha, true_and]
    exact ⟨_, rfl⟩
  · simp only [if_neg ha, and_self]

end Sys2Proof.Machine
end

section
/-! SUPPORT. The decoder against the encoder (30_encoding.md R70-R74), over any reader, over a list of bytes and over
memory. -/

namespace Sys2Proof

/-- An instruction's encoding is as long as the instruction (R70, R71). -/
@[simp] theorem encode_length (m : OpcodeMap) (i : Instr) : (encode m i).length = i.length := by
  rw [encode, List.length_cons, Machine.Instr.operandBytes_length, Instr.length, Nat.add_comm]

/-- Under a legal map the decoder answers an instruction exactly where the reader gives its encoding, byte by byte. -/
theorem decodeFrom_ok_iff_encode {ε : Type} {m : OpcodeMap} (hm : m.Legal) {read : Nat → Except ε Byte}
    {reject : DecodeReject → ε} {i : Instr} :
    decodeFrom m read reject = .ok i ↔
      ∀ (k : Nat) (h : k < (encode m i).length), read k = .ok (encode m i)[k] := by
  rw [decodeFrom_ok_iff hm]
  constructor
  · rintro ⟨hop, hoperands⟩ k h
    cases k with
    | zero => exact hop
    | succ k => exact hoperands k (Nat.lt_of_succ_lt_succ h)
  · intro h
    exact ⟨h 0 (Nat.succ_pos _), fun k hk => h (k + 1) (Nat.succ_lt_succ hk)⟩

/-- An opcode byte outside the table is rejected before any operand is read (40_fetch_decode_execute.md R102). -/
theorem decodeFrom_of_lookup_none {ε : Type} {m : OpcodeMap} {read : Nat → Except ε Byte}
    {reject : DecodeReject → ε} {op : Byte} (hread : read 0 = .ok op) (hop : m.lookup op = none) :
    decodeFrom m read reject = .error (reject (.unknownOpcode op)) := by
  simp only [decodeFrom, hread, bind, Except.bind, hop]

/-- The reader of a list of bytes gives the bytes it lists. -/
theorem listReader_ok_iff {bytes : List Byte} {k : Nat} {v : Byte} :
    (bytes[k]?).elim (.error (.noByte k)) .ok = (.ok v : Except DecodeReject Byte) ↔ bytes[k]? = some v := by
  cases bytes[k]? <;> simp

/-- A list decodes to what the decoder makes of its bytes, with the bytes past that instruction. -/
theorem decode_ok_iff_decodeFrom {m : OpcodeMap} {bytes rest : List Byte} {i : Instr} :
    decode m bytes = .ok (i, rest) ↔
      decodeFrom m (fun k => (bytes[k]?).elim (.error (.noByte k)) .ok) id = .ok i ∧
        bytes.drop i.length = rest := by
  unfold decode
  cases decodeFrom m (fun k => (bytes[k]?).elim (.error (.noByte k)) .ok) id with
  | error e => simp [bind, Except.bind]
  | ok j =>
    simp only [bind, Except.bind, pure, Except.pure, Except.ok.injEq, Prod.mk.injEq]
    exact and_congr_right fun hj => by rw [hj]

/-- Under a legal map a list decodes to an instruction and a rest exactly when it is that instruction's encoding
followed by the rest: the list starts with the encoding, byte by byte. -/
theorem decode_ok_iff {m : OpcodeMap} (hm : m.Legal) {bytes rest : List Byte} {i : Instr} :
    decode m bytes = .ok (i, rest) ↔ bytes = encode m i ++ rest := by
  have hprefix : decodeFrom m (fun k => (bytes[k]?).elim (.error (.noByte k)) .ok) id = .ok i ↔
      encode m i <+: bytes := by
    simp only [decodeFrom_ok_iff_encode hm, listReader_ok_iff, List.prefix_iff_getElem?]
  rw [decode_ok_iff_decodeFrom, hprefix]
  constructor
  · rintro ⟨⟨rest', rfl⟩, rfl⟩
    rw [← encode_length m, List.drop_left]
  · rintro rfl
    exact ⟨List.prefix_append _ _, by rw [← encode_length m, List.drop_left]⟩

end Sys2Proof

namespace Sys2Proof.Machine

/-- Under a legal map the fetch phases answer an instruction exactly where its encoding stands at `pc`, inside memory
(40_fetch_decode_execute.md R101-R104). -/
theorem fetchInstr_ok_iff_codeAt {m : OpcodeMap} (hm : m.Legal) {s : State} {i : Instr} :
    fetchInstr m s = .ok i ↔ CodeAt m i s := by
  refine (decodeFrom_ok_iff_encode hm).trans ?_
  simp only [State.readCode_ok_iff, CodeAt]
  have hlen : 0 < (encode m i).length := Nat.succ_pos _
  constructor
  · intro h
    have hlast := (h ((encode m i).length - 1) (by omega)).1
    exact ⟨by simp only [memSize]; omega, fun k hk => (h k hk).2⟩
  · rintro ⟨hin, h⟩ k hk
    exact ⟨by simp only [memSize] at hin; omega, h k hk⟩

end Sys2Proof.Machine
end

section
/-! SUPPORT. The invariant of Safety.lean after an effect, after an error of execution and after a failed fetch. -/

namespace Sys2Proof.Machine

variable {s : State} {i : Instr}

/-- An effect keeps memory in canonical form: PUSH and CALL store inside it (20_memory.md R50, R52). -/
theorem effect_mem_wf (h : s.mem.wf) : (effect s i).mem.wf := by
  have hsp : s.sp.toNat - 1 < memSize := (Nat.sub_le _ _).trans_lt s.sp.isLt
  cases i with
  | push a => rw [effect, pushed_mem]; exact Memory.wf_write h hsp _
  | call a => rw [effect, called_mem]; exact Memory.wf_write h hsp _
  | jeq a => rw [effect, jumpIf_mem]; exact h
  | jne a => rw [effect, jumpIf_mem]; exact h
  | _ => exact h

/-- An effect leaves a Running core Running, and HLT halts it past its own byte (44_load_output_halt.md R193). -/
theorem effect_recordAgrees (hr : s.run = .running) : RecordAgrees (effect s i) := by
  have hrun := effect_run s i
  by_cases hi : i = .hlt
  · subst hi
    exact Nat.le_add_left 1 s.pc
  · rw [if_neg hi, hr] at hrun
    rw [RecordAgrees, hrun]
    trivial

/-- An out-of-bounds error leaves `pc`, so its record agrees once its address is out of bounds
(60_exceptions.md R202). -/
theorem errorState_recordAgrees_of_outOfBounds (kind : AccessKind) {a : Int} (ha : a < 0 ∨ 255 < a) :
    RecordAgrees (errorState s (.outOfBoundsError kind a s.pc)) := by
  simpa [errorState_eq, RecordAgrees] using ha

/-- An error of execution leaves a record that agrees with `pc` (R202, R203, R205). -/
theorem errorState_recordAgrees {r : HaltReason} (h : execError s i = some r) : RecordAgrees (errorState s r) := by
  rcases execError_cases s h with ⟨_, _, -, -, rfl⟩ | ⟨_, -, -, rfl⟩ | ⟨_, -, -, rfl⟩ | ⟨_, -, -, rfl⟩ |
    ⟨_, -, -, hpc, rfl⟩ | ⟨-, -, rfl⟩
  · simp [errorState_eq, RecordAgrees]
  · exact errorState_recordAgrees_of_outOfBounds _ (.inl (by decide))
  · exact errorState_recordAgrees_of_outOfBounds _ (.inr (by decide))
  · exact errorState_recordAgrees_of_outOfBounds _ (.inl (by decide))
  · exact errorState_recordAgrees_of_outOfBounds _ (.inr (by omega))
  · exact errorState_recordAgrees_of_outOfBounds _ (.inr (by decide))

/-- A failed fetch leaves a record that agrees with `pc` (R201, R202). -/
theorem halt_recordAgrees_of_fetch_error {m : OpcodeMap} (hm : m.Legal) {r : HaltReason}
    (h : fetchInstr m s = .error r) : RecordAgrees (s.halt r) := by
  rcases fetchInstr_error_cases hm h with ⟨hpc, rfl⟩ | ⟨hpc, -, rfl⟩ |
    ⟨o, hpc, -, ⟨-, rfl⟩ | ⟨-, _, -, -, -, rfl⟩⟩
  · exact ⟨rfl, .inr (by omega)⟩
  · exact ⟨rfl, hpc⟩
  · exact ⟨rfl, .inr (by decide)⟩
  · exact ⟨rfl, hpc⟩

/-- An instruction whose bytes lie inside memory leaves `pc` in 0..256 (10_state.md R25). -/
theorem exec_pc_le {t : State} (h : exec i s = .next t) (hlen : s.pc + i.length ≤ 256) : t.pc ≤ 256 := by
  rcases exec_cases h with ⟨-, rfl⟩ | ⟨r, he, rfl⟩
  · have heff := effect_pc s i
    split at heff <;> omega
  · rcases errorState_pc_cases s r with hs | ⟨rfl, hs⟩
    · omega
    · obtain ⟨a, b, rfl⟩ := eq_mod_of_arithmeticFault he
      exact hs.trans_le hlen

/-- At most one flag stays set: only CMP writes them, and it sets exactly one (43_compare_branch.md R170). -/
theorem exec_flagsAtMostOne {t : State} (h : exec i s = .next t) (hfl : s.fl.AtMostOne) : t.fl.AtMostOne := by
  rcases exec_fl h with ht | ⟨a, b, -, ht⟩
  · rwa [ht]
  · rw [ht]
    exact (compareFlags_sum _ _).le

/-- Every instruction inside memory, run in a Running core, keeps the invariant. -/
theorem inv_of_exec {t : State} (hinv : s.Inv) (hr : s.run = .running) (hlen : s.pc + i.length ≤ 256)
    (h : exec i s = .next t) : t.Inv where
  pcInRange := exec_pc_le h hlen
  memCanonical := by
    rcases exec_cases h with ⟨-, rfl⟩ | ⟨r, -, rfl⟩
    · exact effect_mem_wf hinv.memCanonical
    · rw [errorState_mem]; exact hinv.memCanonical
  flagsAtMostOne := exec_flagsAtMostOne h hinv.flagsAtMostOne
  recordAgrees := by
    rcases exec_cases h with ⟨-, rfl⟩ | ⟨r, he, rfl⟩
    · exact effect_recordAgrees hr
    · exact errorState_recordAgrees he

/-- A failed fetch changes the run state alone, and so keeps the invariant. -/
theorem inv_of_fetch_error {m : OpcodeMap} (hm : m.Legal) {r : HaltReason} (hinv : s.Inv)
    (h : fetchInstr m s = .error r) : (s.halt r).Inv where
  pcInRange := hinv.pcInRange
  memCanonical := hinv.memCanonical
  flagsAtMostOne := hinv.flagsAtMostOne
  recordAgrees := halt_recordAgrees_of_fetch_error hm h

/-- Every step under a legal map keeps the invariant. -/
theorem inv_of_stepWith {m : OpcodeMap} (hm : m.Legal) {t : State} (hinv : s.Inv) (h : stepWith m s = .next t) :
    t.Inv := by
  obtain ⟨hr, ⟨r, hf, rfl⟩ | ⟨i, hf, he⟩⟩ := stepWith_cases h
  · exact inv_of_fetch_error hm hinv hf
  · exact inv_of_exec hinv hr (pc_add_length_le hm hf) he

end Sys2Proof.Machine
end

section
/-! SUPPORT. The operand check by the format of its operation, and the table of opcodes as a set of bytes
(30_encoding.md R71-R78). -/

namespace Sys2Proof

/-! ## The operand check (R74, 40_fetch_decode_execute.md R104) -/

theorem regOperand_good {b : Byte} (h : b.toNat ≤ 7) : ∃ a, regOperand b = .ok a :=
  ⟨_, dif_pos (Nat.lt_succ_of_le h)⟩

theorem oneRegister_bad (f : Reg → Instr) {b : Byte} (h : 7 < b.toNat) :
    oneRegister f b = .error (.badRegister b) := by
  rw [oneRegister, regOperand_bad h]; rfl

theorem oneRegister_good (f : Reg → Instr) {b : Byte} (h : b.toNat ≤ 7) : ∃ a, oneRegister f b = .ok (f a) := by
  obtain ⟨a, ha⟩ := regOperand_good h
  exact ⟨a, by rw [oneRegister, ha]; rfl⟩

theorem twoRegisters_bad (f : Reg → Reg → Instr) {b1 : Byte} (b2 : Byte) (h : 7 < b1.toNat) :
    twoRegisters f b1 b2 = .error (.badRegister b1) := by
  rw [twoRegisters, regOperand_bad h]; rfl

/-- Past a good first register byte, the check of two registers is the check of the second. -/
theorem twoRegisters_good (f : Reg → Reg → Instr) {b1 : Byte} (b2 : Byte) (h : b1.toNat ≤ 7) :
    ∃ a, twoRegisters f b1 b2 = oneRegister (f a) b2 := by
  obtain ⟨a, ha⟩ := regOperand_good h
  exact ⟨a, by rw [twoRegisters, ha]; rfl⟩

/-- The operand check is that of the format: no register, one, or two, and an instruction of the operation. -/
theorem assemble_by_registers (o : Operation) (b1 b2 : Byte) :
    (o.format.registers = 0 ∧ ∃ i : Instr, i.operation = o ∧ assemble o b1 b2 = .ok i) ∨
    (o.format.registers = 1 ∧ ∃ f : Reg → Instr, (∀ a, (f a).operation = o) ∧
      assemble o b1 b2 = oneRegister f b1) ∨
    (o.format.registers = 2 ∧ ∃ f : Reg → Reg → Instr, (∀ a b, (f a b).operation = o) ∧
      assemble o b1 b2 = twoRegisters f b1 b2) := by
  cases o with
  | hlt | ret => exact .inl ⟨rfl, _, rfl, rfl⟩
  | push | pop | prn | call | jmp | jeq | jne | not | ldi => exact .inr (.inl ⟨rfl, _, fun _ => rfl, rfl⟩)
  | add | mul | mod | cmp | and | or | xor | shl | shr => exact .inr (.inr ⟨rfl, _, fun _ _ => rfl, rfl⟩)

/-- Everything the operand check answers, the first operand byte checked before the second. -/
theorem assemble_answers (o : Operation) (b1 b2 : Byte) :
    if 1 ≤ o.format.registers ∧ 7 < b1.toNat then assemble o b1 b2 = .error (.badRegister b1)
    else if o.format.registers = 2 ∧ 7 < b2.toNat then assemble o b1 b2 = .error (.badRegister b2)
    else ∃ i : Instr, i.operation = o ∧ assemble o b1 b2 = .ok i := by
  rcases assemble_by_registers o b1 b2 with ⟨hregs, hi⟩ | ⟨hregs, f, hf, ha⟩ | ⟨hregs, f, hf, ha⟩
  · simpa [hregs] using hi
  · by_cases h1 : 7 < b1.toNat
    · simp [hregs, h1, ha, oneRegister_bad]
    · obtain ⟨a, h1a⟩ := oneRegister_good f (Nat.le_of_not_lt h1)
      simp [hregs, h1, ha, h1a, hf]
  · by_cases h1 : 7 < b1.toNat
    · simp [hregs, h1, ha, twoRegisters_bad]
    · obtain ⟨a, h1a⟩ := twoRegisters_good f b2 (Nat.le_of_not_lt h1)
      by_cases h2 : 7 < b2.toNat
      · simp [hregs, h1, h2, ha, h1a, oneRegister_bad]
      · obtain ⟨b, h2b⟩ := oneRegister_good (f a) (Nat.le_of_not_lt h2)
        simp [hregs, h1, h2, ha, h1a, h2b, hf]

/-! ## The opcode table (R71, R72, R76) -/

/-- The opcode's bits 7:6 as a number (R71). -/
theorem operandCount_eq (op : Byte) : operandCount op = op.toNat / 64 := by
  have hlt : op.toNat / 64 < 4 := by have := op.isLt; omega
  calc operandCount op = op.toNat / 64 &&& (2 ^ 2 - 1) := by
        simp [operandCount, Nat.shiftRight_eq_div_pow]
    _ = op.toNat / 64 := by rw [Nat.and_two_pow_sub_one_eq_mod, Nat.mod_eq_of_lt hlt]

theorem Instr.length_of_opcode {m : OpcodeMap} (hm : m.Legal) (i : Instr) :
    i.length = 1 + operandCount (m i.operation) := by
  rw [hm.counts, Instr.length]

theorem opcodeRecognized_iff {m : OpcodeMap} (hm : m.Legal) {op : Byte} :
    opcodeRecognized m op = true ↔ ∃ o, op = m o := by
  simp only [opcodeRecognized, Option.isSome_iff_exists, OpcodeMap.lookup_eq_some_iff hm]

/-- The recognized bytes are the table's, as numbers, each once. -/
theorem recognized_perm_table {m : OpcodeMap} (hm : m.Legal) :
    ((List.range 256).filter fun b => opcodeRecognized m (BitVec.ofNat 8 b)).Perm
      (Operation.all.map fun o => (m o).toNat) := by
  have hinj : Function.Injective fun o => (m o).toNat := fun o o' h => hm.distinct o o' (BitVec.eq_of_toNat_eq h)
  have hnodup : Operation.all.Nodup := by decide
  refine (List.perm_ext_iff_of_nodup (List.nodup_range.filter _) (hnodup.map hinj)).mpr fun b => ?_
  simp only [List.mem_filter, List.mem_range, opcodeRecognized_iff hm, List.mem_map]
  constructor
  · rintro ⟨hb, o, ho⟩
    exact ⟨o, o.mem_all, by rw [← ho, BitVec.toNat_ofNat, Nat.mod_eq_of_lt hb]⟩
  · rintro ⟨o, -, rfl⟩
    exact ⟨(m o).isLt, o, BitVec.ofNat_toNat _ _ |>.trans (BitVec.setWidth_eq _)⟩

/-! ## Well-formed bytes (R70-R74, R78) -/

/-- The checks of WellFormed.lean by the operation whose opcode byte comes first. -/
theorem wellFormed_cons_iff {m : OpcodeMap} (hm : m.Legal) {op : Byte} {operands : List Byte} :
    wellFormed m (op :: operands) = true ↔ ∃ o, op = m o ∧ operands.length = o.format.operands ∧
      ∀ b ∈ operands.take o.format.registers, b.toNat ≤ 7 := by
  cases hl : m.lookup op with
  | none =>
    simp only [wellFormed, opcodeRecognized, hl, Option.isSome_none, Bool.false_and, Bool.false_eq_true, false_iff]
    rintro ⟨o, rfl, -⟩
    rw [OpcodeMap.lookup_self hm] at hl
    cases hl
  | some o =>
    obtain rfl := (OpcodeMap.lookup_eq_some_iff hm).mp hl
    have hop : ∀ o', m o = m o' ↔ o' = o := fun o' => ⟨fun h => (hm.distinct o o' h).symm, fun h => by rw [h]⟩
    simp only [wellFormed, opcodeRecognized, operandCountMatches, registersInRange, hl, hm.counts,
      Option.isSome_some, Bool.true_and, Bool.and_eq_true, beq_iff_eq, List.all_eq_true, decide_eq_true_eq, hop,
      exists_eq_left]

/-- The register operands stand in the first places of an encoding (R73, R74). -/
theorem Instr.operandBytes_registers_le (i : Instr) :
    ∀ b ∈ i.operandBytes.take i.operation.format.registers, b.toNat ≤ 7 := by
  cases i with
  | hlt | ret => exact fun _ hb => absurd hb List.not_mem_nil
  | push a | pop a | prn a | call a | jmp a | jeq a | jne a | not a | ldi a =>
    exact fun _ hb => List.mem_singleton.mp hb ▸ regByte_le a
  | add a b | mul a b | mod a b | cmp a b | and a b | or a b | xor a b | shl a b | shr a b => exact regBytes_le a b

/-- A list of at most two bytes is the front of two bytes. -/
theorem exists_eq_take_two {l : List Byte} (h : l.length ≤ 2) : ∃ b1 b2, l = [b1, b2].take l.length :=
  match l, h with
  | [], _ => ⟨0, 0, rfl⟩
  | [b1], _ => ⟨b1, 0, rfl⟩
  | [b1, b2], _ => ⟨b1, b2, rfl⟩

theorem Format.registers_le_operands (f : Format) : f.registers ≤ f.operands := by cases f <;> decide

theorem Format.operands_le_two (f : Format) : f.operands ≤ 2 := by cases f <;> decide

/-- Operand bytes whose registers are in range make an instruction. -/
theorem assemble_ok_of_registers_le {o : Operation} {b1 b2 : Byte}
    (h : ∀ b ∈ [b1, b2].take o.format.registers, b.toNat ≤ 7) : ∃ i, assemble o b1 b2 = .ok i := by
  have ha := assemble_answers o b1 b2
  split at ha
  · next hbad =>
    have hmem : b1 ∈ [b1, b2].take o.format.registers :=
      List.mem_take_iff_getElem.mpr ⟨0, lt_min hbad.1 (Nat.succ_pos _), rfl⟩
    exact absurd (h b1 hmem) (Nat.not_le_of_lt hbad.2)
  · split at ha
    · next hbad =>
      have hmem : b2 ∈ [b1, b2].take o.format.registers := by rw [hbad.1]; simp
      exact absurd (h b2 hmem) (Nat.not_le_of_lt hbad.2)
    · obtain ⟨i, -, hi⟩ := ha
      exact ⟨i, hi⟩

/-- The well-formed lists of bytes are the encodings. -/
theorem wellFormed_iff_encode {m : OpcodeMap} (hm : m.Legal) {bytes : List Byte} :
    wellFormed m bytes = true ↔ ∃ i, bytes = encode m i := by
  constructor
  · intro h
    match bytes, h with
    | op :: operands, h =>
      obtain ⟨o, rfl, hlen, hregs⟩ := (wellFormed_cons_iff hm).mp h
      obtain ⟨b1, b2, hb⟩ := exists_eq_take_two (hlen.trans_le o.format.operands_le_two)
      rw [hlen] at hb
      rw [hb, List.take_take, min_eq_left o.format.registers_le_operands] at hregs
      obtain ⟨i, hi⟩ := assemble_ok_of_registers_le hregs
      obtain ⟨rfl, hbytes⟩ := assemble_ok_iff.mp hi
      exact ⟨i, by rw [encode, hbytes, ← hb]⟩
  · rintro ⟨i, rfl⟩
    exact wellFormed_encode_of (Machine.Instr.operandBytes_length i) i.operandBytes_registers_le m hm

end Sys2Proof

namespace Sys2Proof.Machine

/-- With the opcode of an operation at `pc` and all its operands inside memory, only the operand check is left to fail
(40_fetch_decode_execute.md R101-R104). -/
theorem fetchInstr_of_opcode {m : OpcodeMap} (hm : m.Legal) {s : State} {o : Operation}
    (hin : s.pc + o.format.operands ≤ 255) (hop : s.mem.read s.pc = m o) :
    fetchInstr m s = (assemble o (s.mem.read (s.pc + 1)) (s.mem.read (s.pc + 2))).mapError s.rejectRecord := by
  have hpc : ¬ 255 < s.pc := by omega
  rw [fetchInstr_eq hm, if_neg hpc, hop, OpcodeMap.lookup_self hm]
  exact if_neg (Nat.not_lt_of_le hin)

/-- A byte outside the table at `pc` fails the fetch whatever stands after it (R102). -/
theorem fetchInstr_of_lookup_none {m : OpcodeMap} {s : State} (hpc : s.pc ≤ 255)
    (hop : m.lookup (s.mem.read s.pc) = none) :
    fetchInstr m s = .error (.decodeError .unknownOpcode (s.mem.read s.pc) s.pc) :=
  decodeFrom_of_lookup_none (s.readCode_in hpc) hop

end Sys2Proof.Machine
end

section
/-! PROOFS. The statements of 30_encoding.md's family. -/

namespace Sys2Proof.Machine

/-- Settles O14: an encoding with any rest is what decodes to the instruction and that rest. -/
theorem decodeOfEncodeIsTheInstruction : Obligations.DecodeOfEncodeIsTheInstruction :=
  fun _ _ _ hm => (decode_ok_iff hm).mpr rfl

/-- Settles O15: only an encoding with the rest decodes so. -/
theorem encodeOfDecodeIsTheBytes : Obligations.EncodeOfDecodeIsTheBytes :=
  fun _ _ _ _ hm => (decode_ok_iff hm).mp

/-- Settles O50: by what a step can do, a failed fetch or an instruction inside memory; `step` is the step under the
default map, which is legal. -/
theorem everyStepKeepsTheInvariant : Obligations.EveryStepKeepsTheInvariant :=
  ⟨fun _ _ _ hm hinv h => inv_of_stepWith hm hinv h, fun _ _ hinv h => inv_of_stepWith opcodeMap_legal hinv h⟩

/-- Settles O4: an encoding that stands at `pc` is fetched, and the step runs what it fetched. -/
theorem stepRunsTheStoredInstruction : Obligations.StepRunsTheStoredInstruction :=
  fun _ _ _ hm hr hcode => stepWith_of_ok hr ((fetchInstr_ok_iff_codeAt hm).mpr hcode)

/-- Settles O9: the fetch comes down to the operand check, whose three answers are the three clauses. -/
theorem badRegisterByteIsADecodeError : Obligations.BadRegisterByteIsADecodeError := by
  intro m s o hm hr hin hop
  have hfetch := fetchInstr_of_opcode hm hin hop
  have ha := assemble_answers o (s.mem.read (s.pc + 1)) (s.mem.read (s.pc + 2))
  split at ha
  · next h1 =>
    rw [if_pos h1]
    rw [ha] at hfetch
    exact stepWith_of_error hr hfetch
  · next h1 =>
    rw [if_neg h1]
    split at ha
    · next h2 =>
      rw [if_pos h2]
      rw [ha] at hfetch
      exact stepWith_of_error hr hfetch
    · next h2 =>
      rw [if_neg h2]
      obtain ⟨i, hi, ha⟩ := ha
      rw [ha] at hfetch
      exact ⟨i, hi, stepWith_of_ok hr hfetch⟩

/-- Settles O16: the well-formed lists and those that decode with no rest are both the encodings. -/
theorem decodeAcceptsExactlyTheWellFormed : Obligations.DecodeAcceptsExactlyTheWellFormed := by
  intro m bytes hm
  simp only [wellFormed_iff_encode hm, decode_ok_iff hm, List.append_nil]

/-- Settles O17: the count is the top two bits, which a legal map makes the length less one and never 3. -/
theorem operandCountIsTheTopTwoBits : Obligations.OperandCountIsTheTopTwoBits := by
  intro m op hm
  rw [← operandCount_eq]
  refine ⟨rfl, fun h3 => Option.eq_none_iff_forall_ne_some.mpr fun o hl => ?_, ?_⟩
  · rw [← OpcodeMap.eq_of_lookup hl] at h3
    exact hm.noThree o h3
  · rintro i rfl
    have hlen := i.length_of_opcode hm
    exact ⟨(encode_length m i).trans hlen, hlen⟩

/-- Settles O18: the recognized bytes are the table's 20, each once. -/
theorem exactlyTwentyOpcodesAreRecognized : Obligations.ExactlyTwentyOpcodesAreRecognized := by
  intro m hm
  rw [(recognized_perm_table hm).length_eq, List.length_map]
  rfl

/-- Settles O7: the fetch fails at the opcode lookup, before any operand is read. -/
theorem unknownOpcodeIsADecodeError : Obligations.UnknownOpcodeIsADecodeError :=
  fun _ _ hr hpc hop => stepWith_of_error hr (fetchInstr_of_lookup_none hpc hop)

/-- Settles O19: each word by running the decoder on its bytes. -/
theorem sampleWordsDecode : Obligations.SampleWordsDecode := by
  unfold Obligations.SampleWordsDecode
  decide

end Sys2Proof.Machine
end

section
/-! SUPPORT. Where the fetch fails at the end of memory, the code bytes as a list, how an instruction leaves the run
standing, and the induction along a run (40_fetch_decode_execute.md R101-R110). -/

namespace Sys2Proof.Machine

/-! ## The fetch at the end of memory (R101, R103) -/

/-- Past the last address the opcode fetch fails, whatever the map (R101). -/
theorem fetchInstr_of_pc_above {m : OpcodeMap} {s : State} (hpc : 255 < s.pc) :
    fetchInstr m s = .error (.outOfBoundsError .fetch s.pc s.pc) := by
  have hread : s.readCode 0 = .error (.outOfBoundsError .fetch s.pc s.pc) := by
    simpa using s.readCode_above (k := 0) hpc
  rw [fetchInstr, decodeFrom, hread]
  rfl

/-- With the opcode of an operation at `pc` and an operand past the last address, an operand fetch fails at 256 (R103). -/
theorem fetchInstr_of_operands_above {m : OpcodeMap} (hm : m.Legal) {s : State} {o : Operation} (hpc : s.pc ≤ 255)
    (hop : s.mem.read s.pc = m o) (hout : 255 < s.pc + o.format.operands) :
    fetchInstr m s = .error (.outOfBoundsError .operandFetch 256 s.pc) := by
  rw [fetchInstr_eq hm, if_neg (Nat.not_lt_of_le hpc), hop, OpcodeMap.lookup_self hm]
  exact if_pos hout

/-! ## The bytes at `pc` (R109) -/

@[simp] theorem codeBytes_length (s : State) : (codeBytes s).length = memSize - s.pc := by simp [codeBytes]

@[simp] theorem codeBytes_getElem (s : State) {k : Nat} (h : k < (codeBytes s).length) :
    (codeBytes s)[k] = s.mem.read (s.pc + k) := by simp [codeBytes]

/-- An instruction stands at `pc` exactly when the bytes from there to the end of memory start with its encoding. -/
theorem codeAt_iff_prefix {m : OpcodeMap} {i : Instr} {s : State} :
    CodeAt m i s ↔ encode m i <+: codeBytes s := by
  have hpos : 0 < (encode m i).length := Nat.succ_pos _
  rw [List.prefix_iff_getElem]
  constructor
  · rintro ⟨hin, hbytes⟩
    exact ⟨by rw [codeBytes_length]; omega, fun k hk => by rw [codeBytes_getElem, hbytes k hk]⟩
  · rintro ⟨hle, hbytes⟩
    rw [codeBytes_length] at hle
    exact ⟨by omega, fun k hk => by rw [hbytes k hk, codeBytes_getElem]⟩

/-! ## How a step leaves the run (R110) -/

/-- A failed fetch ends the run in a fatal error, whatever the map (60_exceptions.md R201, R202). -/
theorem runEnd_of_fetch_error {m : OpcodeMap} {s : State} {r : HaltReason} (h : fetchInstr m s = .error r) :
    runEnd (.halted r) = .fatalError := by
  rcases fetchInstr_error_record h with ⟨_, _, rfl⟩ | ⟨_, _, rfl⟩ <;> rfl

/-- How an instruction of a Running core leaves the run: ended normally by HLT, in the controlled fault by MOD with a
zero divisor, and by any other instruction Running or in a fatal error. -/
theorem exec_runEnd_cases {s t : State} {i : Instr} (hr : s.run = .running) (h : exec i s = .next t) :
    (i = .hlt ∧ runEnd t.run = .normal) ∨
    (∃ a b, i = .mod a b ∧ (s.reg b).toNat = 0 ∧ runEnd t.run = .controlledFault) ∨
    (i ≠ .hlt ∧ (∀ a b, i = .mod a b → (s.reg b).toNat ≠ 0) ∧
      (runEnd t.run = .notEnded ∨ runEnd t.run = .fatalError)) := by
  rcases exec_cases h with ⟨hnone, rfl⟩ | ⟨r, hsome, rfl⟩
  · rw [effect_run, hr]
    by_cases hi : i = .hlt
    · exact .inl ⟨hi, by rw [if_pos hi]; rfl⟩
    · refine .inr (.inr ⟨hi, ?_, .inl (by rw [if_neg hi]; rfl)⟩)
      rintro a b rfl h0
      have hb : s.reg b = 0 := BitVec.eq_of_toNat_eq h0
      rw [execError, if_pos hb] at hnone
      cases hnone
  · rw [errorState_run]
    rcases execError_cases s hsome with ⟨a, b, rfl, hb, rfl⟩ | ⟨_, rfl, -, rfl⟩ | ⟨_, rfl, -, rfl⟩ | ⟨_, rfl, -, rfl⟩ |
      ⟨_, rfl, -, -, rfl⟩ | ⟨rfl, -, rfl⟩
    · exact .inr (.inl ⟨a, b, rfl, by rw [hb]; rfl, rfl⟩)
    all_goals exact .inr (.inr ⟨nofun, nofun, .inr rfl⟩)

/-- HLT, and every instruction that leaves the run state of a Running core, has its effect. -/
theorem eq_effect_of_no_error {s t : State} {i : Instr} (hr : s.run = .running) (h : exec i s = .next t)
    (hrun : t.run = s.run ∨ i = .hlt) : t = effect s i := by
  rcases hrun with hrun | rfl
  · exact eq_effect_of_running h (hrun.trans hr)
  · exact (Host.Outcome.next.inj h).symm

/-! ## Along a run (R111) -/

/-- What every step keeps holds of every state of a run that starts with it. -/
theorem runUpTo_induction {m : OpcodeMap} {P : State → Prop}
    (hstep : ∀ s t, P s → stepWith m s = .next t → P t) (n : Nat) {s : State} (h : P s) : P (runUpTo m n s) := by
  induction n generalizing s with
  | zero => exact h
  | succ n ih =>
    rw [runUpTo]
    cases hs : stepWith m s with
    | next t => exact ih (hstep s t h hs)
    | fault _ | refused _ => exact h

/-- Reset leaves the invariant, for all launch parameters (10_state.md R37). -/
theorem resetWith_inv (p : LaunchParams) : (State.resetWith p).Inv where
  pcInRange := Nat.zero_le 256
  memCanonical := resetWith_mem_wf p
  flagsAtMostOne := Nat.zero_le 1
  recordAgrees := trivial

/-- Loading an image writes memory alone, in canonical form, and so keeps the invariant (R42). -/
theorem inv_of_loadImage {s t : State} {image : List Byte} (hinv : s.Inv) (h : s.loadImage image = some t) : t.Inv := by
  obtain ⟨-, rfl⟩ := State.loadImage_eq_some h
  exact ⟨hinv.pcInRange, Memory.wf_writeFrom hinv.memCanonical _ _, hinv.flagsAtMostOne, hinv.recordAgrees⟩

end Sys2Proof.Machine
end

section
/-! PROOFS. The statements of 40_fetch_decode_execute.md's family. -/

namespace Sys2Proof.Machine

/-- Settles O8: the fetch fails at the first operand address past 255, and the step takes that error. -/
theorem operandFetchPast255IsOutOfBounds : Obligations.OperandFetchPast255IsOutOfBounds :=
  fun _ _ _ hm hr hpc hop hout => stepWith_of_error hr (fetchInstr_of_operands_above hm hpc hop hout)

/-- Settles O13: a failed fetch is a fatal error, and a fetched instruction leaves the run as `exec_runEnd_cases` says. -/
theorem runsEndNormallyOnlyByHlt : Obligations.RunsEndNormallyOnlyByHlt := by
  intro m s t hr h
  rcases stepWith_cases h with ⟨-, ⟨r, hf, rfl⟩ | ⟨i, hf, he⟩⟩
  · simp [hf, runEnd_of_fetch_error hf]
  · rcases exec_runEnd_cases hr he with ⟨rfl, hend⟩ | ⟨a, b, rfl, hb, hend⟩ | ⟨hhlt, hmod, hend⟩
    · simp [hf, hend]
    · simp [hf, hend, hb]
    · have hno : ¬ ∃ a b, i = .mod a b ∧ (s.reg b).toNat = 0 := fun ⟨a, b, hi, hb⟩ => hmod a b hi hb
      rcases hend with hend | hend <;> simp only [hf, hend, Except.ok.injEq, hhlt, hno, reduceCtorEq, and_self]

/-- Settles O47: without an error the next state is the instruction's effect, whose `pc` is the rule above. -/
theorem pcAdvancesByTheLengthUnlessAssigned : Obligations.PcAdvancesByTheLengthUnlessAssigned := by
  intro i s t h hrun hr
  obtain rfl := eq_effect_of_no_error hr h hrun
  exact effect_pc s i

/-- Settles O51: launch leaves the invariant, and every step of the run keeps it. -/
theorem everyRunKeepsTheInvariant : Obligations.EveryRunKeepsTheInvariant :=
  fun _ p _ _ n hm hl =>
    runUpTo_induction (fun _ _ => inv_of_stepWith hm) n (inv_of_loadImage (resetWith_inv p) hl)

/-- Settles O3: bytes that decode start with the instruction's encoding, which then stands at `pc`. -/
theorem stepRunsTheDecodedInstruction : Obligations.StepRunsTheDecodedInstruction := by
  intro s i rest hr hdecode
  have hbytes := (decode_ok_iff opcodeMap_legal).mp hdecode
  exact stepRunsTheStoredInstruction opcodeMap s i opcodeMap_legal hr (codeAt_iff_prefix.mpr ⟨rest, hbytes.symm⟩)

/-- Settles O6: the opcode fetch fails, and the step takes that error. -/
theorem fetchAt256IsOutOfBounds : Obligations.FetchAt256IsOutOfBounds := by
  intro m s hr hpc
  have hfetch := fetchInstr_of_pc_above (m := m) (s := s) (by omega)
  rw [hpc] at hfetch
  exact stepWith_of_error hr hfetch

end Sys2Proof.Machine
end

section
/-! SUPPORT. What each ALU function gives, as a number and as a bit-vector operation (41_alu.md R121-R129), and what an
ALU instruction writes and leaves unchanged (R120). -/

namespace Sys2Proof.Machine

/-! ## The results -/

theorem aluAdd_toNat (x y : Byte) : (aluAdd x y).toNat = (x.toNat + y.toNat) % 256 := narrow_toNat _

theorem aluMul_toNat (x y : Byte) : (aluMul x y).toNat = (x.toNat * y.toNat) % 256 := narrow_toNat _

/-- A remainder is at most its dividend and so needs no narrowing. -/
theorem aluMod_toNat (x y : Byte) : (aluMod x y).toNat = x.toNat % y.toNat :=
  (narrow_toNat _).trans (Nat.mod_eq_of_lt ((Nat.mod_le _ _).trans_lt x.isLt))

/-- A difference from 255 is a byte and so needs no narrowing. -/
theorem aluNot_toNat (x : Byte) : (aluNot x).toNat = 255 - x.toNat :=
  (narrow_toNat _).trans (Nat.mod_eq_of_lt (Nat.lt_succ_of_le (Nat.sub_le _ _)))

theorem aluShl_toNat (x y : Byte) : (aluShl x y).toNat = (x.toNat * 2 ^ y.toNat) % 256 := narrow_toNat _

/-- A quotient is at most its dividend and so needs no narrowing. -/
theorem aluShr_toNat (x y : Byte) : (aluShr x y).toNat = x.toNat / 2 ^ y.toNat :=
  (narrow_toNat _).trans (Nat.mod_eq_of_lt ((Nat.div_le_self _ _).trans_lt x.isLt))

/-- `255 - x` complements every bit. -/
theorem aluNot_eq (x : Byte) : aluNot x = ~~~x :=
  BitVec.eq_of_toNat_eq (by rw [aluNot_toNat, BitVec.toNat_not])

/-- The product with a power of 2, narrowed, is the left shift, for amounts past the width too. -/
theorem aluShl_eq (x y : Byte) : aluShl x y = x <<< y.toNat :=
  BitVec.eq_of_toNat_eq (by rw [aluShl_toNat, BitVec.toNat_shiftLeft, Nat.shiftLeft_eq])

/-- The quotient by a power of 2 is the logical right shift, for amounts past the width too. -/
theorem aluShr_eq (x y : Byte) : aluShr x y = x >>> y.toNat :=
  BitVec.eq_of_toNat_eq (by rw [aluShr_toNat, BitVec.toNat_ushiftRight, Nat.shiftRight_eq_div_pow])

theorem aluNot_getLsbD (x : Byte) {k : Nat} (hk : k < 8) : (aluNot x).getLsbD k = !x.getLsbD k := by
  rw [aluNot_eq, BitVec.getLsbD_not, decide_eq_true hk, Bool.true_and]

theorem aluShl_getLsbD (x y : Byte) {k : Nat} (hk : k < 8) :
    (aluShl x y).getLsbD k = if y.toNat ≤ k then x.getLsbD (k - y.toNat) else false := by
  rw [aluShl_eq, BitVec.getLsbD_shiftLeft]
  by_cases hy : y.toNat ≤ k
  · simp [hk, hy]
  · simp [hy, Nat.lt_of_not_le hy]

theorem aluShr_getLsbD (x y : Byte) (k : Nat) : (aluShr x y).getLsbD k = x.getLsbD (k + y.toNat) := by
  rw [aluShr_eq, BitVec.getLsbD_ushiftRight, Nat.add_comm]

theorem aluShl_of_amount_ge (x : Byte) {y : Byte} (hy : 8 ≤ y.toNat) : aluShl x y = 0 :=
  (aluShl_eq x y).trans (BitVec.shiftLeft_eq_zero hy)

theorem aluShr_of_amount_ge (x : Byte) {y : Byte} (hy : 8 ≤ y.toNat) : aluShr x y = 0 :=
  (aluShr_eq x y).trans (BitVec.ushiftRight_eq_zero hy)

/-! ## The state an ALU instruction leaves (R120) -/

variable (s : State)

/-- A register written and the default advance over `n` operand bytes: nothing else changes. -/
theorem setReg_advance_registerOnly (a : Reg) (v : Byte) (n : Nat) :
    RegisterOnly a (1 + n) s ((s.setReg a v).advance n) where
  regs _ hr := s.reg_setReg_ne v (mt List.mem_singleton.mpr hr)
  mem _ _ := rfl
  control := ⟨rfl, rfl, rfl, rfl⟩
  pc := Nat.add_assoc s.pc 1 n

theorem aluBinary_registerOnly (f : Byte → Byte → Byte) (a b : Reg) : RegisterOnly a 3 s (aluBinary f a b s) :=
  setReg_advance_registerOnly s a _ 2

/-- Both sources are read before the write, so `a = b` is no special case. -/
@[simp] theorem aluBinary_reg (f : Byte → Byte → Byte) (a b : Reg) :
    (aluBinary f a b s).reg a = f (s.reg a) (s.reg b) := s.reg_setReg_same a _

/-- MOD with a nonzero divisor raises no error (R123). -/
theorem execMod_of_ne_zero {a b : Reg} {s : State} (hb : (s.reg b).toNat ≠ 0) :
    execMod a b s = .next (aluBinary aluMod a b s) := by
  rw [execMod_eq, if_neg (mt (byte_eq_iff _ _).mp hb)]

end Sys2Proof.Machine
end

section
/-! PROOFS. The statements of 41_alu.md's family. Each next state is `aluBinary` of the instruction's function, or NOT's
write and advance, whose frame is stated above. -/

namespace Sys2Proof.Machine

/-- Settles O20: ADD writes `aluAdd` of its registers. -/
theorem addAddsModulo256 : Obligations.AddAddsModulo256 :=
  fun a b s => ⟨aluBinary aluAdd a b s, rfl, by rw [aluBinary_reg, aluAdd_toNat], aluBinary_registerOnly s aluAdd a b⟩

/-- Settles O21: MUL writes `aluMul` of its registers. -/
theorem mulKeepsTheLowByteOfTheProduct : Obligations.MulKeepsTheLowByteOfTheProduct :=
  fun a b s => ⟨aluBinary aluMul a b s, rfl, by rw [aluBinary_reg, aluMul_toNat], aluBinary_registerOnly s aluMul a b⟩

/-- Settles O22: past the zero check MOD writes `aluMod` of its registers, a remainder of a positive divisor. -/
theorem modGivesTheRemainder : Obligations.ModGivesTheRemainder := by
  intro a b s hb
  have hval : ((aluBinary aluMod a b s).reg a).toNat = (s.reg a).toNat % (s.reg b).toNat := by
    rw [aluBinary_reg, aluMod_toNat]
  exact ⟨aluBinary aluMod a b s, execMod_of_ne_zero hb, hval,
    hval ▸ Nat.mod_lt _ (Nat.pos_of_ne_zero hb), aluBinary_registerOnly s aluMod a b⟩

/-- Settles O24: the three functions are the bit-vector operations, which work bit by bit. -/
theorem andOrXorWorkBitByBit : Obligations.AndOrXorWorkBitByBit := by
  intro a b s
  refine ⟨⟨aluBinary aluAnd a b s, rfl, aluBinary_registerOnly s aluAnd a b, fun k _ => ?_⟩,
    ⟨aluBinary aluOr a b s, rfl, aluBinary_registerOnly s aluOr a b, fun k _ => ?_⟩,
    ⟨aluBinary aluXor a b s, rfl, aluBinary_registerOnly s aluXor a b, fun k _ => ?_⟩⟩
  · rw [aluBinary_reg, aluAnd, BitVec.getLsbD_and]
  · rw [aluBinary_reg, aluOr, BitVec.getLsbD_or]
  · rw [aluBinary_reg, aluXor, BitVec.getLsbD_xor]

/-- Settles O25: NOT writes `aluNot` of its register and advances over one operand byte. -/
theorem notComplementsOneRegister : Obligations.NotComplementsOneRegister := by
  intro a s
  have hreg : ((s.setReg a (aluNot (s.reg a))).advance 1).reg a = aluNot (s.reg a) := s.reg_setReg_same a _
  refine ⟨_, rfl, setReg_advance_registerOnly s a (aluNot (s.reg a)) 1, ?_, fun k hk => ?_⟩
  · rw [hreg, aluNot_toNat]
  · rw [hreg, aluNot_getLsbD _ hk]

/-- Settles O26: SHL writes `aluShl` of its registers, the left shift by the whole byte. -/
theorem shlShiftsLeftByTheWholeByte : Obligations.ShlShiftsLeftByTheWholeByte := by
  intro a b s
  refine ⟨aluBinary aluShl a b s, rfl, aluBinary_registerOnly s aluShl a b, ?_⟩
  rw [aluBinary_reg]
  exact ⟨aluShl_toNat _ _, fun k hk => aluShl_getLsbD _ _ hk, fun hb => by rw [aluShl_of_amount_ge _ hb]; rfl⟩

/-- Settles O27: SHR writes `aluShr` of its registers, the logical right shift by the whole byte. -/
theorem shrShiftsRightByTheWholeByte : Obligations.ShrShiftsRightByTheWholeByte := by
  intro a b s
  refine ⟨aluBinary aluShr a b s, rfl, aluBinary_registerOnly s aluShr a b, ?_⟩
  rw [aluBinary_reg]
  exact ⟨aluShr_toNat _ _, fun k _ => aluShr_getLsbD _ _ k, fun hb => by rw [aluShr_of_amount_ge _ hb]; rfl⟩

end Sys2Proof.Machine
end

section
/-! SUPPORT. What PUSH, POP, CALL and RET leave in the stack pointer and the registers they name (42_stack_control.md
R150-R155), and the frame of an effect as a whole. -/

namespace Sys2Proof.Machine

variable (s : State)

/-! ## The frame of an effect -/

theorem jumpIf_arithFaultPcAdvance (c : Bool) (a : Reg) :
    (jumpIf c a s).arithFaultPcAdvance = s.arithFaultPcAdvance := by cases c <;> rfl

/-- No effect writes the launch parameter (00_scope.md R7). -/
theorem effect_arithFaultPcAdvance (i : Instr) : (effect s i).arithFaultPcAdvance = s.arithFaultPcAdvance := by
  cases i with
  | jeq a => exact jumpIf_arithFaultPcAdvance s _ a
  | jne a => exact jumpIf_arithFaultPcAdvance s _ a
  | _ => rfl

/-- Every effect but those of HLT, CMP and PRN leaves the flags, the run state, the output sink and the launch
parameter. -/
theorem effect_sameControl {i : Instr} (hhlt : i ≠ .hlt) (hcmp : ¬ ∃ a b, i = .cmp a b) (hprn : emits s i = []) :
    SameControl s (effect s i) where
  fl := effect_fl s hcmp
  run := by rw [effect_run, if_neg hhlt]
  out := by rw [effect_out, hprn, List.append_nil]
  arithFaultPcAdvance := effect_arithFaultPcAdvance s i

/-- An effect leaves every register but the destinations and every byte but the one stored. -/
theorem effect_sameState (i : Instr) :
    SameRegsBut (destinations i) s (effect s i) ∧ SameMemBut (storesTo s i) s (effect s i) :=
  ⟨fun _ hr => effect_reg s hr, fun _ hb => effect_mem_read s hb⟩

/-! ## The stack pointer (R22, R150) -/

/-- The address above a stack pointer below 255 is itself a byte. -/
theorem narrow_succ_toNat {v : Byte} (hv : v.toNat ≠ 255) : (narrow (v.toNat + 1)).toNat = v.toNat + 1 := by
  have := byte_le v
  rw [narrow_toNat]
  omega

theorem pushed_sp_toNat (a : Reg) : (pushed a s).sp.toNat = s.sp.toNat - 1 := by
  rw [pushed, State.sp_advance, State.sp_setMem, State.sp_setReg_spReg, narrow_pred_toNat]

theorem called_sp_toNat (a : Reg) : (called a s).sp.toNat = s.sp.toNat - 1 := by
  rw [called, State.sp_jump, State.sp_setMem, State.sp_setReg_spReg, narrow_pred_toNat]

theorem returned_sp_toNat (h : s.sp.toNat ≠ 255) : (returned s).sp.toNat = s.sp.toNat + 1 := by
  rw [returned, State.sp_jump, State.sp_setReg_spReg, narrow_succ_toNat h]

/-- POP R7 replaces the stack pointer before the increment (D21); any other POP leaves it until then. -/
theorem popLoaded_sp (a : Reg) :
    (popLoaded a s).sp = if a = spReg then s.mem.read s.sp.toNat else s.sp := s.sp_setReg a _

theorem effect_pop_sp_toNat {a : Reg} (h : (popLoaded a s).sp.toNat ≠ 255) :
    (effect s (.pop a)).sp.toNat = (popLoaded a s).sp.toNat + 1 := by
  rw [effect, State.sp_advance, State.sp_setReg_spReg, narrow_succ_toNat h]

/-! ## What is loaded and stored (R152-R154) -/

/-- The increment of the stack pointer leaves the byte popped into another register. -/
theorem effect_pop_reg {a : Reg} (ha : a ≠ spReg) : (effect s (.pop a)).reg a = s.mem.read s.sp.toNat := by
  rw [effect, State.reg_advance, State.reg_setReg_ne _ _ ha, popLoaded, State.reg_setReg_same]

theorem pushed_mem_read (a : Reg) : (pushed a s).mem.read (s.sp.toNat - 1) = (pushed a s).reg a := by
  rw [pushed_mem, Memory.read_write_same]

/-- A return address that is an address is stored whole. -/
theorem called_mem_read {s : State} (a : Reg) (hpc : s.pc + 2 ≤ 255) :
    ((called a s).mem.read (s.sp.toNat - 1)).toNat = s.pc + 2 := by
  rw [called_mem, Memory.read_write_same, narrow_toNat, Nat.mod_eq_of_lt (Nat.lt_succ_of_le hpc)]

/-! ## CALL without an error (R154) -/

/-- CALL with room on the stack and a return address that is an address raises no error. -/
theorem execCall_of_no_error {s : State} {a : Reg} (hsp : s.sp.toNat ≠ 0) (hpc : s.pc + 2 ≤ 255) :
    execCall a s = .next (called a s) := by
  rw [execCall_eq, if_neg hsp, if_pos hpc]

end Sys2Proof.Machine
end

section
/-! PROOFS. The statements of 42_stack_control.md's family. Each instruction's equation (Laws/Exec.lean) picks its effect
or its error; the effect's values and frame are stated above. -/

namespace Sys2Proof.Machine

/-- Settles O28: with `sp` not 0 PUSH leaves `pushed`, whose new byte and stack pointer are the rules above. -/
theorem pushStoresBelowTheStackPointer : Obligations.PushStoresBelowTheStackPointer := by
  intro a s hsp
  obtain ⟨hregs, hmem⟩ := effect_sameState s (.push a)
  exact ⟨pushed a s, (execPush_eq s a).trans (if_neg hsp), pushed_sp_toNat s a, pushed_mem_read s a, hregs, hmem,
    effect_sameControl s (i := .push a) nofun nofun rfl, rfl⟩

/-- Settles O30: when the loaded stack pointer has a successor POP has its effect. -/
theorem popLoadsFromTheStackPointer : Obligations.PopLoadsFromTheStackPointer := by
  intro a s hsp
  rw [← popLoaded_sp] at hsp ⊢
  obtain ⟨hregs, hmem⟩ := effect_sameState s (.pop a)
  exact ⟨effect s (.pop a), (execPop_eq s a).trans (if_neg hsp), effect_pop_reg s, effect_pop_sp_toNat s hsp, hregs, hmem,
    effect_sameControl s (i := .pop a) nofun nofun rfl, rfl⟩

/-- Settles O32: past both checks CALL leaves `called`, which jumps to `x[a]` as it stands after the decrement. -/
theorem callStoresTheReturnAddressAndJumps : Obligations.CallStoresTheReturnAddressAndJumps := by
  intro a s hsp hpc
  obtain ⟨hregs, hmem⟩ := effect_sameState s (.call a)
  exact ⟨called a s, execCall_of_no_error hsp hpc, called_sp_toNat s a, called_mem_read a hpc, rfl, hregs, hmem,
    effect_sameControl s (i := .call a) nofun nofun rfl⟩

/-- Settles O33: by the two checks in CALL's order. -/
theorem callChecksTheStackThenTheReturnAddress : Obligations.CallChecksTheStackThenTheReturnAddress := by
  intro a s
  split_ifs with hsp hpc
  · exact (execCall_eq s a).trans (if_pos hsp)
  · exact (execCall_eq s a).trans ((if_neg hsp).trans (if_neg (Nat.not_le_of_lt hpc)))
  · exact ⟨called a s, execCall_of_no_error hsp (Nat.le_of_not_lt hpc), rfl⟩

/-- Settles O34: with `sp` below 255 RET leaves `returned`. -/
theorem retJumpsToTheByteAtTheStackPointer : Obligations.RetJumpsToTheByteAtTheStackPointer := by
  intro s hsp
  obtain ⟨hregs, hmem⟩ := effect_sameState s .ret
  exact ⟨returned s, (execRet_eq s).trans (if_neg hsp), rfl, returned_sp_toNat s hsp, hregs, hmem,
    effect_sameControl s (i := .ret) nofun nofun rfl⟩

/-- Settles O29: at `sp` 0 the decrement fails, and the error is taken in the state before PUSH. -/
theorem pushAtZeroIsOutOfBounds : Obligations.PushAtZeroIsOutOfBounds :=
  fun a s hsp => (execPush_eq s a).trans (if_pos hsp)

/-- Settles O31: the increment of the loaded stack pointer fails, and the error undoes the load. -/
theorem popPastTheTopIsOutOfBounds : Obligations.PopPastTheTopIsOutOfBounds := by
  intro a s hsp
  rw [← popLoaded_sp] at hsp
  exact (execPop_eq s a).trans (if_pos hsp)

/-- Settles O35: at `sp` 255 the increment fails, and the error is taken in the state before RET. -/
theorem retAtTheTopIsOutOfBounds : Obligations.RetAtTheTopIsOutOfBounds :=
  fun s hsp => (execRet_eq s).trans (if_pos hsp)

end Sys2Proof.Machine
end

section
/-! SUPPORT. What CMP's flags say, and that the three jumps are one conditional jump and what it leaves unchanged
(43_compare_branch.md R170-R173). -/

namespace Sys2Proof.Machine

/-! ## The comparison (R170) -/

theorem compareFlags_e_iff (x y : Byte) : (compareFlags x y).e = true ↔ x.toNat = y.toNat := beq_iff_eq

theorem compareFlags_l_iff (x y : Byte) : (compareFlags x y).l = true ↔ x.toNat < y.toNat := decide_eq_true_iff

theorem compareFlags_g_iff (x y : Byte) : (compareFlags x y).g = true ↔ y.toNat < x.toNat := decide_eq_true_iff

/-! ## The jumps (R171-R173) -/

variable (s : State)

theorem jumpIf_run (c : Bool) (a : Reg) : (jumpIf c a s).run = s.run := by cases c <;> rfl

/-- Taken or not, a jump changes none of the flags, the run state, the output sink and the launch parameter. -/
theorem jumpIf_sameControl (c : Bool) (a : Reg) : SameControl s (jumpIf c a s) :=
  ⟨jumpIf_fl s c a, jumpIf_run s c a, jumpIf_out s c a, jumpIf_arithFaultPcAdvance s c a⟩

/-- JMP, JEQ and JNE are the conditional jump under `true`, E and not E. -/
theorem exec_eq_jumpIf {s : State} {i : Instr} {a : Reg} {taken : Bool}
    (h : (i = .jmp a ∧ taken = true) ∨ (i = .jeq a ∧ taken = s.fl.e) ∨ (i = .jne a ∧ taken = !s.fl.e)) :
    exec i s = .next (jumpIf taken a s) := by
  rcases h with ⟨rfl, rfl⟩ | ⟨rfl, rfl⟩ | ⟨rfl, rfl⟩
  · rfl
  · rfl
  · rfl

end Sys2Proof.Machine
end

section
/-! PROOFS. The statements of 43_compare_branch.md's family. -/

namespace Sys2Proof.Machine

/-- Settles O39: each of the three is the conditional jump, whose `pc` and frame are stated above. -/
theorem jumpsGoToTheRegisterOrFallThrough : Obligations.JumpsGoToTheRegisterOrFallThrough :=
  fun a s _ taken h =>
    ⟨jumpIf taken a s, exec_eq_jumpIf h, jumpIf_pc s taken a, fun r _ => jumpIf_reg s taken a r,
      fun b _ => congrArg (·.read b) (jumpIf_mem s taken a), jumpIf_sameControl s taken a⟩

/-- Settles O38: CMP writes `compareFlags` of its registers over the flags and advances over two operand bytes. -/
theorem cmpReplacesTheFlags : Obligations.CmpReplacesTheFlags := by
  intro a b s
  obtain ⟨hregs, hmem⟩ := effect_sameState s (.cmp a b)
  exact ⟨effect s (.cmp a b), rfl, compareFlags_e_iff _ _, compareFlags_l_iff _ _, compareFlags_g_iff _ _,
    compareFlags_sum _ _, hregs, hmem, rfl, rfl, rfl, rfl⟩

end Sys2Proof.Machine
end

section
/-! SUPPORT. What leaves through the output port (10_state.md R44). -/

namespace Sys2Proof.Machine

/-- What the sink grew by is what the port carries (R44). -/
theorem emitted_of_out_append {s t : State} {bytes : List Byte} (h : t.out = s.out ++ bytes) : emitted s t = bytes := by
  rw [emitted, h, List.drop_left]

/-- The port carries the bytes the instruction emits, and no others. -/
theorem emitted_effect (s : State) (i : Instr) : emitted s (effect s i) = emits s i :=
  emitted_of_out_append (effect_out s i)

end Sys2Proof.Machine
end

section
/-! PROOFS. The statements of 44_load_output_halt.md's family. None of the three instructions can raise an error, so each
leaves its effect, whose frame is stated above. -/

namespace Sys2Proof.Machine

/-- Settles O40: LDI writes the immediate and advances over two operand bytes. -/
theorem ldiLoadsTheImmediate : Obligations.LdiLoadsTheImmediate :=
  fun a imm s =>
    ⟨(s.setReg a imm).advance 2, rfl, s.reg_setReg_same a imm, setReg_advance_registerOnly s a imm 2⟩

/-- Settles O41: PRN emits the register's byte, which is what the sink gains and the port carries. -/
theorem prnEmitsTheRegister : Obligations.PrnEmitsTheRegister := by
  intro a s
  obtain ⟨hregs, hmem⟩ := effect_sameState s (.prn a)
  exact ⟨effect s (.prn a), rfl, effect_out s (.prn a), emitted_effect s (.prn a), hregs, hmem, rfl,
    effect_run s (.prn a), effect_arithFaultPcAdvance s (.prn a), rfl⟩

/-- Settles O42: HLT leaves its effect, which is Halted, and a Halted state has no step under any opcode map. -/
theorem hltHaltsAfterItsAdvance : Obligations.HltHaltsAfterItsAdvance := by
  intro m s
  obtain ⟨hregs, hmem⟩ := effect_sameState s .hlt
  have hhalted : (effect s .hlt).run = .halted .hlt := effect_run s .hlt
  exact ⟨effect s .hlt, rfl, hhalted, rfl, hregs, hmem, rfl, rfl, effect_arithFaultPcAdvance s .hlt,
    step_of_halted hhalted⟩

end Sys2Proof.Machine
end

section
/-! SUPPORT. How a step of a Running core comes to an error, what its record names, and the state it leaves
(60_exceptions.md R201-R205). -/

namespace Sys2Proof.Machine

variable {m : OpcodeMap} {s t : State} {i : Instr} {r : HaltReason}

/-- The fetch phases never raise the arithmetic fault, so their errors change the run state alone. -/
theorem errorState_of_fetch_error (h : fetchInstr m s = .error r) : errorState s r = s.halt r := by
  rcases fetchInstr_error_record h with ⟨_, _, rfl⟩ | ⟨_, _, rfl⟩ <;> simp [errorState]

theorem recordPc_of_fetch_error (h : fetchInstr m s = .error r) : recordPc r = some s.pc := by
  rcases fetchInstr_error_record h with ⟨_, _, rfl⟩ | ⟨_, _, rfl⟩ <;> rfl

theorem recordPc_of_execError (h : execError s i = some r) : recordPc r = some s.pc := by
  rcases execError_cases s h with ⟨_, _, -, -, rfl⟩ | ⟨_, -, -, rfl⟩ | ⟨_, -, -, rfl⟩ | ⟨_, -, -, rfl⟩ |
    ⟨_, -, -, -, rfl⟩ | ⟨-, -, rfl⟩ <;> rfl

/-- The execute phase raises no decode error (R201). -/
theorem execError_ne_decodeError (sub : DecodeSub) (byte : Byte) (p : Nat) :
    execError s i ≠ some (.decodeError sub byte p) := by
  intro h
  rcases execError_cases s h with ⟨_, _, -, -, hr⟩ | ⟨_, -, -, hr⟩ | ⟨_, -, -, hr⟩ | ⟨_, -, -, hr⟩ |
    ⟨_, -, -, -, hr⟩ | ⟨-, -, hr⟩ <;> cases hr

/-- A step that ends Halted other than by HLT raised that error, in the fetch phases or in execution, and leaves the
error's state. -/
theorem stepWith_error_cases (hrun : s.run = .running) (h : stepWith m s = .next t) (ht : t.run = .halted r)
    (hr : r ≠ .hlt) :
    (fetchInstr m s = .error r ∨ ∃ i, fetchInstr m s = .ok i ∧ execError s i = some r) ∧ t = errorState s r := by
  rcases stepWith_cases h with ⟨-, ⟨r', hf, rfl⟩ | ⟨i, hf, he⟩⟩
  · obtain rfl : r' = r := RunState.halted.inj ht
    exact ⟨.inl hf, (errorState_of_fetch_error hf).symm⟩
  · rcases exec_cases he with ⟨-, rfl⟩ | ⟨r', hsome, rfl⟩
    · rw [effect_run, hrun] at ht
      split at ht
      · exact absurd (RunState.halted.inj ht).symm hr
      · cases ht
    · obtain rfl : r' = r := RunState.halted.inj ((errorState_run s r').symm.trans ht)
      exact ⟨.inr ⟨i, hf, hsome⟩, rfl⟩

end Sys2Proof.Machine
end

section
/-! PROOFS. The statements of 60_exceptions.md's family. -/

namespace Sys2Proof.Machine

/-- Settles O10: an error, of the fetch phases or of execution, names `pc` and leaves `errorState`. -/
theorem errorsArePrecise : Obligations.ErrorsArePrecise := by
  intro m s t r hrun h ht hr
  obtain ⟨hcause, rfl⟩ := stepWith_error_cases hrun h ht hr
  refine ⟨?_, ?_⟩
  · rcases hcause with hf | ⟨i, -, he⟩
    · exact recordPc_of_fetch_error hf
    · exact recordPc_of_execError he
  · rw [errorState_eq]
    split_ifs
    · rfl
    · rfl

/-- Settles O11: the out-of-bounds errors among the causes of the fetch phases and of execution, each with its kind. -/
theorem outOfBoundsHasOnlyTheTablesCauses : Obligations.OutOfBoundsHasOnlyTheTablesCauses := by
  intro m s t kind a p hm hpc hrun h ht
  obtain ⟨hf | ⟨i, hf, he⟩, -⟩ := stepWith_error_cases hrun h ht nofun
  · rcases fetchInstr_error_cases hm hf with ⟨hpc', ⟨⟩⟩ | ⟨-, -, ⟨⟩⟩ | ⟨o, hpc', hop, ⟨hout, ⟨⟩⟩ | ⟨-, _, -, -, -, ⟨⟩⟩⟩
    · exact ⟨by omega, by omega⟩
    · exact ⟨o, hop, hpc', hout, rfl⟩
  · rcases execError_cases s he with ⟨_, _, -, -, ⟨⟩⟩ | ⟨q, rfl, hsp, ⟨⟩⟩ | ⟨q, rfl, hsp, ⟨⟩⟩ | ⟨q, rfl, hsp, ⟨⟩⟩ |
      ⟨q, rfl, hsp, hret, ⟨⟩⟩ | ⟨rfl, hsp, ⟨⟩⟩
    · exact ⟨q, hf, hsp, rfl⟩
    · exact ⟨q, hf, rfl, popLoaded_sp s q ▸ hsp⟩
    · exact ⟨q, hf, hsp, rfl⟩
    · have hin : s.pc + 2 ≤ 256 := pc_add_length_le hm hf
      exact ⟨q, hf, hsp, by omega, by omega⟩
    · exact ⟨hf, hsp, rfl⟩

/-- Settles O12: execution raises no decode error, and the fetch phases raise two. -/
theorem decodeErrorHasOnlyItsTwoCauses : Obligations.DecodeErrorHasOnlyItsTwoCauses := by
  intro m s t sub byte p hm hrun h ht
  obtain ⟨hf | ⟨i, -, he⟩, -⟩ := stepWith_error_cases hrun h ht nofun
  · rcases fetchInstr_error_cases hm hf with ⟨-, ⟨⟩⟩ | ⟨hpc, hop, ⟨⟩⟩ | ⟨o, hpc, hop, ⟨-, ⟨⟩⟩ | ⟨-, k, hk, hk', h7, ⟨⟩⟩⟩
    · exact ⟨hpc, rfl, rfl, hop⟩
    · exact ⟨hpc, rfl, h7, o, hop, k, hk, hk', rfl⟩
  · exact absurd he (execError_ne_decodeError sub byte p)

/-- Settles O23: MOD raises its fault, which leaves the error's state. -/
theorem modByZeroIsAnArithmeticFault : Obligations.ModByZeroIsAnArithmeticFault := by
  intro a b s hb
  have herr : execError s (.mod a b) = some (.arithmeticFault s.pc) := if_pos ((byte_eq_iff _ _).mpr hb)
  rw [exec_eq, herr]
  simp only [Option.elim_some, errorState_eq, and_true]

end Sys2Proof.Machine
end

section
/-! SUPPORT. Where a block's invariant says it stands, by its phase, and that each accepted host action keeps it
(70_reset_and_hazards.md R231). -/

namespace Sys2Proof.Machine

variable {b b' : Block}

/-- Before the load the core is in a reset state. -/
theorem Block.Inv.core_eq_resetWith (hinv : b.Inv) (hp : b.phase = .awaitingImage) :
    ∃ p, b.core = State.resetWith p ∧ b.taken = 0 := by
  have h := hinv.standing
  rwa [hp] at h

theorem Block.Inv.taken_of_loaded (hinv : b.Inv) (hp : b.phase = .loaded) : b.taken = 0 := by
  have h := hinv.standing
  rw [hp] at h
  obtain ⟨-, -, -, ht⟩ := h
  exact ht

/-- From the load on, first step or not, the core is in the run of a launched state. -/
theorem Block.Inv.core_eq_runUpTo (hinv : b.Inv) (hp : b.phase = .loaded ∨ b.phase = .started) :
    ∃ p image s, launch p image = some s ∧ b.core = runUpTo opcodeMap b.taken s := by
  have h := hinv.standing
  rcases hp with hp | hp
  · rw [hp] at h
    obtain ⟨p, image, hl, ht⟩ := h
    exact ⟨p, image, b.core, hl, by rw [ht, runUpTo]⟩
  · rw [hp] at h
    obtain ⟨p, image, s, hl, hcore, -⟩ := h
    exact ⟨p, image, s, hl, hcore⟩

theorem Block.reset_inv (p : LaunchParams) : (Block.reset p).Inv where
  standing := ⟨p, rfl, rfl⟩
  underCeiling := nofun

/-- Loading an image into a reset state launches it. -/
theorem Block.Inv.load {image : List Byte} (hinv : b.Inv) (h : b.load image = .ok b') : b'.Inv := by
  obtain ⟨hp, s, hl, rfl⟩ := Block.load_cases h
  obtain ⟨p, hcore, ht⟩ := hinv.core_eq_resetWith hp
  rw [hcore] at hl
  exact ⟨⟨p, image, hl, ht⟩, hinv.underCeiling⟩

theorem Block.Inv.failLoad (hinv : b.Inv) (h : b.failLoad = .ok b') : b'.Inv := by
  obtain ⟨hp, rfl⟩ := Block.failLoad_cases h
  exact ⟨hinv.core_eq_resetWith hp, hinv.underCeiling⟩

/-- A ceiling is set while no step was taken, so no ceiling is too low. -/
theorem Block.Inv.setCeiling {n : Nat} (hinv : b.Inv) (h : b.setCeiling n = .ok b') : b'.Inv := by
  obtain ⟨hp, rfl⟩ := Block.setCeiling_cases h
  have ht := hinv.taken_of_loaded hp
  exact ⟨hinv.standing, fun k _ => by rw [ht]; exact Nat.zero_le k⟩

/-- A step lengthens the run by one, and is taken below the ceiling only. -/
theorem Block.Inv.step (hinv : b.Inv) (h : b.act .step = .ok b') : b'.Inv := by
  obtain ⟨hp, hrun⟩ := Block.act_step_cases h
  obtain ⟨hc, t, hs, rfl⟩ := Block.run_cases hrun
  obtain ⟨p, image, s, hl, hcore⟩ := hinv.core_eq_runUpTo hp
  rw [hcore] at hs
  have hlast : t = runUpTo opcodeMap (b.taken + 1) s := (runUpTo_succ_last hs).symm
  refine ⟨⟨p, image, s, hl, hlast, Nat.succ_pos _⟩, fun n (hn : b.ceiling = some n) => ?_⟩
  rw [Block.atCeiling_eq hn, decide_eq_false_iff_not, not_le] at hc
  exact hc

/-- While the load port is open a step is turned away. -/
theorem Block.act_step_of_awaitingImage (hp : b.phase = .awaitingImage) : b.act .step = .error .notLoaded := by
  simp only [Block.act, hp]

theorem Block.failLoad_of_awaitingImage (hp : b.phase = .awaitingImage) :
    b.failLoad = .ok { b with phase := .loadFailed } := by
  simp only [Block.failLoad, hp]

/-- After a LoadError only reset is accepted. -/
theorem Block.act_of_loadFailed (hp : b.phase = .loadFailed) {act : HostAction} (hact : ∀ p, act ≠ .reset p) :
    b.act act = .error .loadFailed := by
  cases act with
  | reset p => exact absurd rfl (hact p)
  | load image => simp only [Block.act, Block.load, hp]
  | loadError => simp only [Block.act, Block.failLoad, hp]
  | setCeiling n => simp only [Block.act, Block.setCeiling, hp]
  | step => simp only [Block.act, hp]

end Sys2Proof.Machine
end

section
/-! PROOFS. The statements of 70_reset_and_hazards.md's family. -/

namespace Sys2Proof.Machine

/-- Settles O60: by the host action, each of which keeps the invariant. -/
theorem everyHostActionKeepsTheBlockInOneRun : Obligations.EveryHostActionKeepsTheBlockInOneRun := by
  refine ⟨Block.reset_inv, fun b b' act hinv h => ?_⟩
  cases act with
  | reset p =>
    obtain rfl : Block.reset p = b' := Except.ok.inj h
    exact Block.reset_inv p
  | load image => exact hinv.load h
  | loadError => exact hinv.failLoad h
  | setCeiling n => exact hinv.setCeiling h
  | step => exact hinv.step h

/-- Settles O59: the LoadError leaves the phase in which all but reset is turned away. -/
theorem coreNeverStartsAfterALoadError : Obligations.CoreNeverStartsAfterALoadError :=
  fun _ hp => ⟨Block.act_step_of_awaitingImage hp, _, Block.failLoad_of_awaitingImage hp, rfl,
    fun _ => Block.act_of_loadFailed rfl⟩

end Sys2Proof.Machine
end

section
/-! SUPPORT. A pop undoes the push before it, whether PUSH or CALL pushed and POP or RET pops (42_stack_control.md
R152-R155). -/

namespace Sys2Proof.Machine

theorem SameControl.trans {s t u : State} (hst : SameControl s t) (htu : SameControl t u) : SameControl s u where
  fl := htu.fl.trans hst.fl
  run := htu.run.trans hst.run
  out := htu.out.trans hst.out
  arithFaultPcAdvance := htu.arithFaultPcAdvance.trans hst.arithFaultPcAdvance

/-- A register written with the value it holds leaves the state. -/
theorem State.setReg_reg (s : State) (r : Reg) : s.setReg r (s.reg r) = s := by
  have hregs : s.regs.set r (s.reg r) = s.regs := Vector.set_getElem_self _
  rw [State.setReg, hregs]

/-- After a push that changed no register but `sp`, the increment restores the whole register file. -/
theorem regs_of_push_then_incSp {s t : State} (hsp : s.sp.toNat ≠ 0) (ht : t.sp.toNat = s.sp.toNat - 1)
    (hregs : SameRegsBut [spReg] s t) : (t.setReg spReg (narrow (t.sp.toNat + 1))).regs = s.regs := by
  refine State.regs_ext fun r => ?_
  by_cases hr : r = spReg
  · subst hr
    have hback : t.sp.toNat + 1 = s.sp.toNat := by omega
    rw [State.reg_setReg_same, hback, narrow_byte, State.sp_eq]
  · rw [State.reg_setReg_ne _ _ hr, hregs r (mt List.mem_singleton.mp hr)]

/-- After a push the increment of `sp` stays a byte, so that the pop raises no error. -/
theorem sp_ne_255_of_push {s t : State} (ht : t.sp.toNat = s.sp.toNat - 1) :
    t.sp.toNat ≠ 255 := by
  have := byte_le s.sp
  omega

/-- The byte POP reads back is what its register already holds, R7 included (D21). -/
theorem popLoaded_pushed (s : State) (a : Reg) : popLoaded a (pushed a s) = pushed a s := by
  rw [popLoaded, pushed_sp_toNat, pushed_mem_read, State.setReg_reg]

end Sys2Proof.Machine
end

section
/-! SUPPORT. The launch parameter after an instruction (00_scope.md R7), and a canonical memory as the set of its listed
cells (20_memory.md R50, R53). -/

namespace Sys2Proof.Machine

@[simp] theorem errorState_arithFaultPcAdvance (s : State) (r : HaltReason) :
    (errorState s r).arithFaultPcAdvance = s.arithFaultPcAdvance := by rw [errorState_eq]

theorem exec_arithFaultPcAdvance {s t : State} {i : Instr} (h : exec i s = .next t) :
    t.arithFaultPcAdvance = s.arithFaultPcAdvance := by
  rcases exec_cases h with ⟨-, rfl⟩ | ⟨r, -, rfl⟩
  · exact effect_arithFaultPcAdvance s i
  · exact errorState_arithFaultPcAdvance s r

/-- A listed byte is what its address reads as, since no address is listed twice. -/
theorem Memory.read_of_mem {m : Memory} (h : m.Pairwise fun c d => c.1 < d.1) {c : Host.Cell} (hc : c ∈ m) :
    m.read c.1 = c.2 := by
  induction m with
  | nil => exact absurd hc List.not_mem_nil
  | cons d rest ih =>
    obtain ⟨hd, hrest⟩ := List.pairwise_cons.mp h
    rcases List.mem_cons.mp hc with rfl | hc
    · exact if_pos rfl
    · exact (if_neg (hd c hc).ne).trans (ih hrest hc)

/-- What a canonical memory lists: the addresses that do not read as `unlisted`, each with its byte. -/
theorem Memory.mem_iff_read {m : Memory} (h : m.wf) {c : Host.Cell} :
    c ∈ m ↔ c.1 < memSize ∧ c.2 ≠ unlisted ∧ m.read c.1 = c.2 := by
  obtain ⟨hcells, hrising⟩ := h
  constructor
  · intro hc
    obtain ⟨haddr, hbyte⟩ := hcells c hc
    exact ⟨haddr, hbyte, Memory.read_of_mem hrising hc⟩
  · rintro ⟨-, hbyte, hread⟩
    by_contra hc
    have hno : ∀ d ∈ m, d.1 ≠ c.1 := by
      intro d hd haddr
      have hdc : d.2 = c.2 := by rw [← Memory.read_of_mem hrising hd, haddr, hread]
      exact hc (Prod.ext haddr hdc ▸ hd)
    exact hbyte (hread.symm.trans (Memory.read_of_not_mem hno))

/-- Rising lists with the same cells are the same list. -/
theorem Memory.eq_of_mem_iff {m n : Memory} (hm : m.Pairwise fun c d => c.1 < d.1)
    (hn : n.Pairwise fun c d => c.1 < d.1) (h : ∀ c, c ∈ m ↔ c ∈ n) : m = n := by
  have hasymm : Std.Asymm fun c d : Host.Cell => c.1 < d.1 := ⟨fun _ _ => Nat.lt_asymm⟩
  have hirrefl : Std.Irrefl fun c d : Host.Cell => c.1 < d.1 := ⟨fun _ => Nat.lt_irrefl _⟩
  exact hm.eq_of_mem_iff hn (fun {c} => h c)

end Sys2Proof.Machine
end

section
/-! PROOFS. The stack vectors W2 and W3 (95_test_vectors.md), the launch parameter along a step, the canonical form of
memory, and the invariant at reset. -/

namespace Sys2Proof.Machine

/-- Settles O36: POP's load changes nothing after PUSH, and its increment takes back PUSH's decrement. -/
theorem pushThenPopIsTheIdentity : Obligations.PushThenPopIsTheIdentity := by
  intro n s hsp
  obtain ⟨hregs, hmem⟩ := effect_sameState s (.push n)
  have hctl : SameControl s (pushed n s) := effect_sameControl s (i := .push n) nofun nofun rfl
  have hdec := pushed_sp_toNat s n
  have hpop := execPop_eq (pushed n s) n
  rw [popLoaded_pushed, if_neg (sp_ne_255_of_push hdec)] at hpop
  exact ⟨pushed n s, _, (execPush_eq s n).trans (if_neg hsp), hpop, regs_of_push_then_incSp hsp hdec hregs, hmem,
    hctl.trans ⟨rfl, rfl, rfl, rfl⟩, rfl⟩

/-- Settles O37: RET reads back the return address CALL stored, and its increment takes back CALL's decrement. -/
theorem callThenRetReturnsAfterTheCall : Obligations.CallThenRetReturnsAfterTheCall := by
  intro a s hsp hpc
  obtain ⟨hregs, -⟩ := effect_sameState s (.call a)
  have hdec := called_sp_toNat s a
  have hret := (execRet_eq (called a s)).trans (if_neg (sp_ne_255_of_push hdec))
  have hback : (returned (called a s)).pc = s.pc + 2 := by
    rw [returned, State.jump_pc, hdec, called_mem_read a hpc]
  have hctl : SameControl s (called a s) := effect_sameControl s (i := .call a) nofun nofun rfl
  exact ⟨called a s, returned (called a s), execCall_of_no_error hsp hpc, hret, hback,
    regs_of_push_then_incSp hsp hdec hregs, hctl.trans ⟨rfl, rfl, rfl, rfl⟩⟩

/-- Settles O49: a failed fetch writes the run state alone, and no instruction writes the launch parameter. -/
theorem noStepChangesTheLaunchParameter : Obligations.NoStepChangesTheLaunchParameter := by
  intro m s t h
  rcases stepWith_cases h with ⟨-, ⟨r, -, rfl⟩ | ⟨i, -, he⟩⟩
  · exact s.halt_arithFaultPcAdvance r
  · exact exec_arithFaultPcAdvance he

/-- Settles O55: memories that read alike list the same cells, in the one rising order. -/
theorem canonicalMemoriesThatReadAlikeAreEqual : Obligations.CanonicalMemoriesThatReadAlikeAreEqual := by
  intro m n hm hn hread
  refine Memory.eq_of_mem_iff hm.2 hn.2 fun c => ?_
  rw [Memory.mem_iff_read hm, Memory.mem_iff_read hn]
  exact and_congr_right fun haddr => by rw [hread c.1 haddr]

/-- Settles O2: `State.reset` is the reset of the default launch parameters, and every reset leaves the invariant. -/
theorem resetStateHasTheInvariant : Obligations.ResetStateHasTheInvariant := by
  rw [Obligations.ResetStateHasTheInvariant, reset_eq_resetWith]
  exact resetWith_inv defaultLaunch

end Sys2Proof.Machine
end
